-- ==== Sys2Proof/Word.lean ====
section
/-! DEFINITION. The two data widths of the machine, the byte and the word (spec/00_scope.md R2, R8), and the
names of its registers (spec/10_state.md R21).
Everything that a test could show wrong about them (byte order, reduction) stands in Decode.lean and
Machine/, not here. -/

namespace Sys2Proof

/-- 8 bits: an opcode, a register selector, a raw register index, one cell of memory (R2). -/
abbrev Byte := BitVec 8

/-- 16 bits: a register, an address, a literal operand (R2). -/
abbrev Word := BitVec 16

/-- The twelve registers, in the order that numbers them 0 to 11 (R21). -/
inductive Reg where
  | ip | acc | r1 | r2 | r3 | r4 | r5 | r6 | r7 | r8 | sp | fp
  deriving DecidableEq, Repr

end Sys2Proof
end

