-- ==== Sys2Proof/Config.lean ====
section
/-! DEFINITION. The rows of the opcode table with their operand kinds and formats, by name only
(spec/30_encoding.md R81, R82, R84), and the parameters of a machine instance, "set at construction, immutable thereafter"
(spec/00_scope.md R6): the memory size, the opcode numbers and the policy for an unrecognised opcode.
The fourth parameter of R6, the memory image MEM_INIT, is what memory holds at the first step and so is
part of the state. The types stand here; the default values stand where a repair can mend them
(OpcodeMap.default in Decode.lean, Params.default in Machine/Defaults.lean).

The spec leaves no value free: nothing in this model is an uninterpreted constant. -/

namespace Sys2Proof

/-- The four kinds of operand field (R81). -/
inductive OperandKind where
  /-- a 16-bit value used as data, 2 bytes, big-endian -/
  | lit16
  /-- a 16-bit absolute byte address of main memory, 2 bytes, big-endian -/
  | addr16
  /-- a register selector, 1 byte, reduced modulo 12 -/
  | regsel
  /-- a raw register index, 1 byte, not reduced (ADD_REG_REG only) -/
  | regidx
  deriving DecidableEq, Repr

/-- The ten instruction formats of R82, under the names the spec gives them. -/
inductive Format where
  | fLR | fRR | fRA | fAR | fII | fLA | fL | fR | fA | f0
  deriving DecidableEq, Repr

/-- The twelve rows of the opcode table (R84). -/
inductive Mnemonic where
  | movLitReg | movRegReg | movRegMem | movMemReg | addRegReg | jmpNotEq
  | pushLit | pushReg | pop | calLit | calReg | ret
  deriving DecidableEq, Repr

/-- The twelve rows in the order of the table (R84). -/
def Mnemonic.all : List Mnemonic :=
  [.movLitReg, .movRegReg, .movRegMem, .movMemReg, .addRegReg, .jmpNotEq, .pushLit, .pushReg, .pop, .calLit,
    .calReg, .ret]

/-- `ILLEGAL_POLICY`: what a step does on an unrecognised opcode (R6, R89). -/
inductive IllegalPolicy where
  /-- raise IllegalInstruction (the spec's choice) -/
  | fault
  /-- commit the IP advance of the opcode fetch and nothing else (the original's behaviour) -/
  | ignore
  deriving DecidableEq, Repr

/-- `OPC`: a map from the twelve mnemonics to bytes (R6, R85), as plain data. -/
structure OpcodeMap where
  movLitReg : Byte
  movRegReg : Byte
  movRegMem : Byte
  movMemReg : Byte
  addRegReg : Byte
  jmpNotEq : Byte
  pushLit : Byte
  pushReg : Byte
  pop : Byte
  calLit : Byte
  calReg : Byte
  ret : Byte
  deriving DecidableEq, Repr

/-- `OPC[m]`. -/
def OpcodeMap.get (o : OpcodeMap) : Mnemonic → Byte
  | .movLitReg => o.movLitReg
  | .movRegReg => o.movRegReg
  | .movRegMem => o.movRegMem
  | .movMemReg => o.movMemReg
  | .addRegReg => o.addRegReg
  | .jmpNotEq => o.jmpNotEq
  | .pushLit => o.pushLit
  | .pushReg => o.pushReg
  | .pop => o.pop
  | .calLit => o.calLit
  | .calReg => o.calReg
  | .ret => o.ret

/-- The parameters fixed for the life of a machine instance (R6). -/
structure Params where
  /-- `MEM_BYTES`, the length of main memory in bytes -/
  memBytes : Nat
  /-- `OPC` -/
  opc : OpcodeMap
  /-- `ILLEGAL_POLICY` -/
  illegalPolicy : IllegalPolicy
  deriving DecidableEq, Repr

end Sys2Proof
end

