-- ==== Sys2Proof/Syntax.lean ====
section
/-! DEFINITION. The syntax of the instruction set: one constructor per row of spec/opcode_table.json
(spec/30_encoding.md R84). -/

namespace Sys2Proof

/-- An instruction with its operands in encoding order (R84). A register selector stands as the register
it selects: the selector bytes that are equal modulo 12 are the same instruction (R87). A raw register
index stands as its byte, which is not reduced (R88). -/
inductive Instr where
  /-- MOV_LIT_REG lit, rd -/
  | movLitReg (lit : Word) (rd : Reg)
  /-- MOV_REG_REG rs, rd -/
  | movRegReg (rs rd : Reg)
  /-- MOV_REG_MEM rs, addr -/
  | movRegMem (rs : Reg) (addr : Word)
  /-- MOV_MEM_REG addr, rd -/
  | movMemReg (addr : Word) (rd : Reg)
  /-- ADD_REG_REG i1, i2 -/
  | addRegReg (i1 i2 : Byte)
  /-- JMP_NOT_EQ lit, addr -/
  | jmpNotEq (lit addr : Word)
  /-- PUSH_LIT lit -/
  | pushLit (lit : Word)
  /-- PUSH_REG rs -/
  | pushReg (rs : Reg)
  /-- POP rd -/
  | pop (rd : Reg)
  /-- CAL_LIT addr -/
  | calLit (addr : Word)
  /-- CAL_REG rs -/
  | calReg (rs : Reg)
  /-- RET -/
  | ret
  deriving DecidableEq, Repr

/-- The row of the opcode table an instruction belongs to. -/
def Instr.mnemonic : Instr → Mnemonic
  | .movLitReg _ _ => .movLitReg
  | .movRegReg _ _ => .movRegReg
  | .movRegMem _ _ => .movRegMem
  | .movMemReg _ _ => .movMemReg
  | .addRegReg _ _ => .addRegReg
  | .jmpNotEq _ _ => .jmpNotEq
  | .pushLit _ => .pushLit
  | .pushReg _ => .pushReg
  | .pop _ => .pop
  | .calLit _ => .calLit
  | .calReg _ => .calReg
  | .ret => .ret

end Sys2Proof
end

