-- ==== Sys2Proof/WellFormed.lean ====
section
/-! DEFINITION. What makes an instruction and a parameter set well-formed.

An instruction has no check to fail: every value of every operand field decodes ("Operand bytes never
make an instruction illegal", spec/30_encoding.md R90), and the types of Syntax.lean hold exactly the
values of the fields. The checks are the constraints of spec/00_scope.md R6 on the parameters. -/

namespace Sys2Proof

/-- Every instruction is well-formed (R90): a raw index of 12 or more and an address outside memory
decode, and the step faults when it uses them. -/
def Instr.wellFormed : Instr → Bool
  | .movLitReg _ _ => true
  | .movRegReg _ _ => true
  | .movRegMem _ _ => true
  | .movMemReg _ _ => true
  | .addRegReg _ _ => true
  | .jmpNotEq _ _ => true
  | .pushLit _ => true
  | .pushReg _ => true
  | .pop _ => true
  | .calLit _ => true
  | .calReg _ => true
  | .ret => true

/-- The twelve values of an opcode map, in the order of R84. -/
def OpcodeMap.values (o : OpcodeMap) : List Byte := Mnemonic.all.map o.get

/-- "the twelve values are pairwise distinct" (R6). -/
abbrev OpcodeMap.Injective (o : OpcodeMap) : Prop := o.values.Nodup

/-- The constraints of R6: `2 <= MEM_BYTES <= 65536`, and OPC injective. -/
abbrev Params.WellFormed (p : Params) : Prop :=
  2 ≤ p.memBytes ∧ p.memBytes ≤ 65536 ∧ p.opc.Injective

end Sys2Proof
end

