-- ==== Sys2Proof/Decode.lean ====
section
/-! DEFINITION. Decoding and encoding (spec/30_encoding.md): the formats and lengths (R82, R83), the
opcode numbers (R85), byte order (spec/20_memory.md R51), register selectors (R87), the decoder over any
bytes, and after it the encoder. -/

namespace Sys2Proof

/-- `{hi, lo}`: the word whose high byte stands at the lower address (R8, R51). -/
def bigEndian (hi lo : Byte) : Word := hi ++ lo

/-- `w[15:8]` (R8). -/
def highByte (w : Word) : Byte := w.extractLsb' 8 8

/-- `w[7:0]` (R8). -/
def lowByte (w : Word) : Byte := w.extractLsb' 0 8

/-- The register number of R21. -/
def Reg.number : Reg → Nat
  | .ip => 0
  | .acc => 1
  | .r1 => 2
  | .r2 => 3
  | .r3 => 4
  | .r4 => 5
  | .r5 => 6
  | .r6 => 7
  | .r7 => 8
  | .r8 => 9
  | .sp => 10
  | .fp => 11

/-- The register at a position of the fixed list, the position taken modulo 12 (R21, R87). -/
def Reg.nth (n : Nat) : Reg :=
  match n % 12 with
  | 0 => .ip
  | 1 => .acc
  | 2 => .r1
  | 3 => .r2
  | 4 => .r3
  | 5 => .r4
  | 6 => .r5
  | 7 => .r6
  | 8 => .r7
  | 9 => .r8
  | 10 => .sp
  | _ => .fp

/-- The register a selector byte picks: number `b mod 12`, "wrap-around, never an error" (R87). -/
def Reg.ofSelector (b : Byte) : Reg := Reg.nth b.toNat

/-- The canonical selector of register `i` is the byte `i` (R87). -/
def Reg.selector (r : Reg) : Byte := BitVec.ofNat 8 r.number

/-- The width of an operand field in bytes (R81). -/
def OperandKind.width : OperandKind → Nat
  | .lit16 => 2
  | .addr16 => 2
  | .regsel => 1
  | .regidx => 1

/-- The operand fields of a format, in memory order (R82). -/
def Format.layout : Format → List OperandKind
  | .fLR => [.lit16, .regsel]
  | .fRR => [.regsel, .regsel]
  | .fRA => [.regsel, .addr16]
  | .fAR => [.addr16, .regsel]
  | .fII => [.regidx, .regidx]
  | .fLA => [.lit16, .addr16]
  | .fL => [.lit16]
  | .fR => [.regsel]
  | .fA => [.addr16]
  | .f0 => []

/-- The format of each row of the opcode table (R84). -/
def Mnemonic.format : Mnemonic → Format
  | .movLitReg => .fLR
  | .movRegReg => .fRR
  | .movRegMem => .fRA
  | .movMemReg => .fAR
  | .addRegReg => .fII
  | .jmpNotEq => .fLA
  | .pushLit => .fL
  | .pushReg => .fR
  | .pop => .fR
  | .calLit => .fA
  | .calReg => .fR
  | .ret => .f0

/-- "`length = 1 +` the sum of the widths of the operand fields of that opcode's format" (R83). -/
def Mnemonic.length (m : Mnemonic) : Nat := 1 + (m.format.layout.map OperandKind.width).sum

/-- The length of an instruction in bytes: a fixed function of its opcode (R80, R83). -/
def Instr.length (i : Instr) : Nat := i.mnemonic.length

/-- The default `OPC` (R85). PRESUMED (unsafe): the source gives no opcode numbers and the spec takes these
from general knowledge (D1, G1); notes/assumptions/1.md. -/
def OpcodeMap.default : OpcodeMap where
  movLitReg := 0x10
  movRegReg := 0x11
  movRegMem := 0x12
  movMemReg := 0x13
  addRegReg := 0x14
  jmpNotEq := 0x15
  pushLit := 0x17
  pushReg := 0x18
  pop := 0x1A
  calLit := 0x5E
  calReg := 0x5F
  ret := 0x60

/-- The row an opcode byte selects, `none` for an unrecognised one: the chain of comparisons of
spec/40_step_and_fetch.md R111, in its order. -/
def OpcodeMap.lookup (o : OpcodeMap) (b : Byte) : Option Mnemonic := Mnemonic.all.find? fun m => o.get m == b

/-- Reads the operands of one row in the order of its layout (R84) from any source `σ` of bytes, register
selectors and big-endian words, which fails by `ε`. The decoder over lists of bytes (`decode`) and the
fetches of a step (`Machine.fetchInstr`, where the source is main memory at IP) are this one function. -/
def readOperands {σ ε : Type} (byte : σ → Except ε (Byte × σ)) (reg : σ → Except ε (Reg × σ))
    (word : σ → Except ε (Word × σ)) : Mnemonic → σ → Except ε (Instr × σ)
  | .movLitReg, s => do
    let (lit, s) ← word s
    let (rd, s) ← reg s
    pure (.movLitReg lit rd, s)
  | .movRegReg, s => do
    let (rs, s) ← reg s
    let (rd, s) ← reg s
    pure (.movRegReg rs rd, s)
  | .movRegMem, s => do
    let (rs, s) ← reg s
    let (addr, s) ← word s
    pure (.movRegMem rs addr, s)
  | .movMemReg, s => do
    let (addr, s) ← word s
    let (rd, s) ← reg s
    pure (.movMemReg addr rd, s)
  | .addRegReg, s => do
    let (i1, s) ← byte s
    let (i2, s) ← byte s
    pure (.addRegReg i1 i2, s)
  | .jmpNotEq, s => do
    let (lit, s) ← word s
    let (addr, s) ← word s
    pure (.jmpNotEq lit addr, s)
  | .pushLit, s => do
    let (lit, s) ← word s
    pure (.pushLit lit, s)
  | .pushReg, s => do
    let (rs, s) ← reg s
    pure (.pushReg rs, s)
  | .pop, s => do
    let (rd, s) ← reg s
    pure (.pop rd, s)
  | .calLit, s => do
    let (addr, s) ← word s
    pure (.calLit addr, s)
  | .calReg, s => do
    let (rs, s) ← reg s
    pure (.calReg rs, s)
  | .ret, s => pure (.ret, s)

/-- Why a list of bytes does not begin with an instruction. -/
inductive DecodeError where
  /-- the opcode byte is not one of the twelve values of OPC (R89) -/
  | unrecognised (b : Byte)
  /-- the list ends before the instruction does -/
  | truncated
  deriving DecidableEq, Repr

/-- The first byte of a list. -/
def takeByte : List Byte → Except DecodeError (Byte × List Byte)
  | b :: bs => .ok (b, bs)
  | [] => .error .truncated

/-- The first byte of a list as a register selector (R87). -/
def takeReg : List Byte → Except DecodeError (Reg × List Byte)
  | b :: bs => .ok (Reg.ofSelector b, bs)
  | [] => .error .truncated

/-- The first two bytes of a list as a big-endian word (R86). -/
def takeWord : List Byte → Except DecodeError (Word × List Byte)
  | h :: l :: bs => .ok (bigEndian h l, bs)
  | [_] => .error .truncated
  | [] => .error .truncated

/-- The instruction a list of bytes begins with, and the bytes after it (R80, R83). -/
def decode (opc : OpcodeMap) : List Byte → Except DecodeError (Instr × List Byte)
  | [] => .error .truncated
  | b :: bs =>
    match opc.lookup b with
    | none => .error (.unrecognised b)
    | some m => readOperands takeByte takeReg takeWord m bs

/-- The two bytes of a word in memory order (R51, R86). -/
def wordBytes (w : Word) : List Byte := [highByte w, lowByte w]

/-- The operand bytes of an instruction in memory order (R82), register selectors in their canonical
form (R87, R92). -/
def encodeOperands : Instr → List Byte
  | .movLitReg lit rd => wordBytes lit ++ [rd.selector]
  | .movRegReg rs rd => [rs.selector, rd.selector]
  | .movRegMem rs addr => rs.selector :: wordBytes addr
  | .movMemReg addr rd => wordBytes addr ++ [rd.selector]
  | .addRegReg i1 i2 => [i1, i2]
  | .jmpNotEq lit addr => wordBytes lit ++ wordBytes addr
  | .pushLit lit => wordBytes lit
  | .pushReg rs => [rs.selector]
  | .pop rd => [rd.selector]
  | .calLit addr => wordBytes addr
  | .calReg rs => [rs.selector]
  | .ret => []

/-- The bytes of an instruction: the opcode byte, then the operands (R80). -/
def encode (opc : OpcodeMap) (i : Instr) : List Byte := opc.get i.mnemonic :: encodeOperands i

/-- The longest instruction is JMP_NOT_EQ, 5 bytes (R80). The bytes of an instruction given as one
number whose bit 0 is bit 0 of the first byte, the bits from `nbits` up read as 0. -/
def tableBytes (nbits w : Nat) : List Byte :=
  let v := w % 2 ^ nbits
  [BitVec.ofNat 8 v, BitVec.ofNat 8 (v / 2 ^ 8), BitVec.ofNat 8 (v / 2 ^ 16), BitVec.ofNat 8 (v / 2 ^ 24),
    BitVec.ofNat 8 (v / 2 ^ 32)]

/-- The instruction the decoder reads, under the default opcode numbers, from bits numbered as
spec/opcode_table.json numbers them. -/
def decodeTableWord (nbits w : Nat) : Option Instr :=
  match decode OpcodeMap.default (tableBytes nbits w) with
  | .ok (i, _) => some i
  | .error _ => none

end Sys2Proof
end

