-- ==== Sys2Proof/Machine/Defaults.lean ====
section
/-! DEFINITION. The parameter values `State.reset` stands for (spec/00_scope.md R6). Every statement over all
states holds for every value of the parameters: they are carried in State. -/

namespace Sys2Proof.Machine

/-- The value the spec uses where it needs one (R6). PRESUMED (unsafe): `MEM_BYTES` 65536 and the opcode numbers
are the spec's own examples, from general knowledge (D1, D2); notes/assumptions/1.md and 2.md. The policy
`fault` is the spec's choice (D4); notes/assumptions/4.md. -/
def Params.default : Params where
  memBytes := 65536
  opc := OpcodeMap.default
  illegalPolicy := .fault

end Sys2Proof.Machine
end

