-- ==== Sys2Proof/Machine/State.lean ====
section
/-! DEFINITION. The architectural state (spec/10_state.md R20 to R36), the reasons a step can stop, and reset. -/

namespace Sys2Proof.Machine

/-- The register file: twelve 16-bit registers (R21), held as twelve words because every access the
instruction set can make to its 24-byte backing store is a word access at an even offset (R23). -/
structure RegFile where
  ip : Word
  acc : Word
  r1 : Word
  r2 : Word
  r3 : Word
  r4 : Word
  r5 : Word
  r6 : Word
  r7 : Word
  r8 : Word
  sp : Word
  fp : Word
  deriving DecidableEq, Repr

/-- The causes a step can raise (R30, spec/60_exceptions.md R201 to R203). A cause is raised inside a step,
which then commits nothing but the fault latch (`takeFault`, a next state); the outcome `fault` of a step is
the answer of a machine whose latch is already set (R208). -/
inductive Fault where
  /-- Code 1, reserved: no step raises it (R203); only the host's `peekRegister` answers it. Safe. -/
  | unknownRegister
  /-- Code 2: an access to main memory or to the register-file store lay outside its buffer (R201). Raised by
  `memRead8`, `memRead16`, `memWrite8`, `memWrite16` and `rfRead`. Safe: the original goes on with corrupted
  memory where the model stops (D3). -/
  | outOfBounds
  /-- Code 3: an unrecognised opcode under `ILLEGAL_POLICY = fault` (R202). Raised by `execUnrecognised`. Safe:
  the original goes on at the next byte, which the policy `ignore` models (D4). -/
  | illegalInstruction
  deriving DecidableEq, Repr

/-- Why the model gives an instruction no meaning. -/
inductive Refusal where
  /-- An instruction without a meaning, by its mnemonic. No arm of `exec` answers it: all twelve
  instructions have their meaning. Safe. -/
  | notModelled (mnemonic : String)
  deriving DecidableEq, Repr

/-- Main memory as the cells that differ from what an unlisted address reads as, addresses strictly
rising (`Memory.wf`). -/
abbrev Memory := List Host.Cell

/-- The complete architectural state of one machine instance (R20), and the parameters it was constructed
with, which no step changes. -/
structure State where
  /-- `MEM_BYTES`, `OPC` and `ILLEGAL_POLICY`: configuration, carried so that one step function covers
  every machine instance (R6, R20; notes/assumptions/3.md) -/
  params : Params
  /-- the register file `x[0..11]` (R21) -/
  regs : RegFile
  /-- the hidden frame-size counter `fsz`, the "running 'bytes pushed this frame' counter" (R28) -/
  fsz : Word
  /-- the fault latch `FAULT`; `none` is the spec's `None` (R30) -/
  fault : Option Fault
  /-- main memory `M[0 .. MEM_BYTES-1]` (R32) -/
  mem : Memory
  deriving DecidableEq, Repr

/-- The state reset leaves a machine instance in (R35), memory standing as it does at that moment (R36). -/
def State.resetWith (p : Params) (mem : Memory) : State where
  params := p
  regs :=
    { ip := 0, acc := 0, r1 := 0, r2 := 0, r3 := 0, r4 := 0, r5 := 0, r6 := 0, r7 := 0, r8 := 0
      sp := BitVec.ofNat 16 (p.memBytes - 2), fp := BitVec.ofNat 16 (p.memBytes - 2) }
  fsz := 0
  fault := none
  mem := mem

/-- The machine right after reset, under the default parameters, nothing loaded into memory (R35, R241).
DESIGN CHOICE (unsafe): `MEM_INIT` lists nothing, so every byte reads as 0x00; notes/assumptions/5.md. -/
def State.reset : State := State.resetWith Params.default []

end Sys2Proof.Machine
end

