-- ==== Sys2Proof/Machine/Ops.lean ====
section
/-! DEFINITION. The named operations over registers, memory, the stack and the fault latch: the pseudocode
primitives of spec/00_scope.md R9, each written from its own rule. An operation that can raise answers
`Except Fault`; what a raise does to the machine is said once, in `commit`. -/

namespace Sys2Proof.Machine

/-! ### Memory as data -/

/-- What a byte of main memory that nothing has listed reads as. DESIGN CHOICE (unsafe): the spec leaves the
image open (`MEM_INIT`, D11) and its examples take 0x00; notes/assumptions/5.md. -/
def Memory.unwritten : Byte := 0

/-- `M[a]` as data, without a bounds check. -/
def Memory.read : Memory → Nat → Byte
  | [], _ => Memory.unwritten
  | (k, v) :: m, a => if k = a then v else Memory.read m a

/-- Memory without the cells of one address. -/
def Memory.erase : Memory → Nat → Memory
  | [], _ => []
  | (k, v) :: m, a => if k = a then Memory.erase m a else (k, v) :: Memory.erase m a

/-- A cell put before the first cell of a higher address. -/
def Memory.place : Memory → Nat → Byte → Memory
  | [], a, v => [(a, v)]
  | (k, w) :: m, a, v => if a < k then (a, v) :: (k, w) :: m else (k, w) :: Memory.place m a v

/-- `M[a] <- v`, keeping the canonical form: the value an unlisted address reads as is not listed. -/
def Memory.write (m : Memory) (a : Nat) (v : Byte) : Memory :=
  if v = Memory.unwritten then m.erase a else (m.erase a).place a v

/-- The canonical form: addresses strictly rising, no cell equal to what an unlisted address reads as. -/
abbrev Memory.wf (m : Memory) : Prop :=
  (m.map Prod.fst).Pairwise (· < ·) ∧ ∀ c ∈ m, c.2 ≠ Memory.unwritten

/-- Every listed address exists: main memory is `M[0 .. n-1]` (spec/10_state.md R32). -/
abbrev Memory.within (n : Nat) (m : Memory) : Prop := ∀ c ∈ m, c.1 < n

/-! ### Registers -/

/-- The read `x[i]` of the register file. -/
def RegFile.get (f : RegFile) : Reg → Word
  | .ip => f.ip
  | .acc => f.acc
  | .r1 => f.r1
  | .r2 => f.r2
  | .r3 => f.r3
  | .r4 => f.r4
  | .r5 => f.r5
  | .r6 => f.r6
  | .r7 => f.r7
  | .r8 => f.r8
  | .sp => f.sp
  | .fp => f.fp

/-- The write `x[i] <- v` of the register file; no register is hardwired (spec/10_state.md R21). -/
def RegFile.set (f : RegFile) (r : Reg) (v : Word) : RegFile :=
  match r with
  | .ip => { f with ip := v }
  | .acc => { f with acc := v }
  | .r1 => { f with r1 := v }
  | .r2 => { f with r2 := v }
  | .r3 => { f with r3 := v }
  | .r4 => { f with r4 := v }
  | .r5 => { f with r5 := v }
  | .r6 => { f with r6 := v }
  | .r7 => { f with r7 := v }
  | .r8 => { f with r8 := v }
  | .sp => { f with sp := v }
  | .fp => { f with fp := v }

/-- `x[i]` (spec/00_scope.md R9). -/
def State.reg (s : State) (r : Reg) : Word := s.regs.get r

/-- `x[i] <- v` (R9). A value of type Word is already reduced modulo 2^16 (spec/10_state.md R27). -/
def State.setReg (s : State) (r : Reg) (v : Word) : State := { s with regs := s.regs.set r v }

/-- `fsz <- v` (spec/10_state.md R28). -/
def State.setFsz (s : State) (v : Word) : State := { s with fsz := v }

/-- Main memory replaced. -/
def State.setMem (s : State) (m : Memory) : State := { s with mem := m }

/-- `M[a]` as data, without a bounds check. -/
def State.byteAt (s : State) (a : Nat) : Byte := s.mem.read a

/-- `{M[a], M[a+1]}` as data, without a bounds check. -/
def State.wordAt (s : State) (a : Word) : Word := bigEndian (s.byteAt a.toNat) (s.byteAt (a.toNat + 1))

/-! ### Faults -/

/-- The code of a cause in the latch (spec/10_state.md R30). -/
def Fault.code : Fault → Nat
  | .unknownRegister => 1
  | .outOfBounds => 2
  | .illegalInstruction => 3

/-- The code the latch `FAULT` holds (R30): 0 is `None`. -/
def State.faultCode (s : State) : Nat :=
  match s.fault with
  | none => 0
  | some e => e.code

/-- Fault entry (spec/60_exceptions.md R206): from the state before the step, `FAULT <- code(E)` and nothing
else. No register is saved and control goes nowhere; there is no return from a fault (R208), only reset. -/
def takeFault (e : Fault) (s : State) : State := { s with fault := some e }

/-- The end of a step that began at `s` (spec/00_scope.md R10): a computation that ran to its end commits its
state; one that raised is discarded, and the fault is taken from `s`. -/
def commit (s : State) (c : Except Fault State) : Host.Outcome State Fault Refusal :=
  match c with
  | .ok t => .next t
  | .error e => .next (takeFault e s)

/-! ### Bounds-checked memory access (spec/20_memory.md R52 to R56) -/

/-- `MemRead(addr, 1)` (R52). -/
def memRead8 (s : State) (addr : Word) : Except Fault Byte :=
  if s.params.memBytes < addr.toNat + 1 then .error .outOfBounds
  else .ok (s.byteAt addr.toNat)

/-- `MemRead(addr, 2)` (R53). The sum `addr + 2` is a natural-number sum, not reduced modulo 2^16. -/
def memRead16 (s : State) (addr : Word) : Except Fault Word :=
  if s.params.memBytes < addr.toNat + 2 then .error .outOfBounds
  else .ok (s.wordAt addr)

/-- `MemWrite(addr, 1, v)` (R54). No instruction issues it; the loader does. -/
def memWrite8 (s : State) (addr : Word) (v : Byte) : Except Fault State :=
  if s.params.memBytes < addr.toNat + 1 then .error .outOfBounds
  else .ok (s.setMem (s.mem.write addr.toNat v))

/-- `MemWrite(addr, 2, v)` (R55): the high byte at the lower address. -/
def memWrite16 (s : State) (addr v : Word) : Except Fault State :=
  if s.params.memBytes < addr.toNat + 2 then .error .outOfBounds
  else .ok (s.setMem ((s.mem.write addr.toNat (highByte v)).write (addr.toNat + 1) (lowByte v)))

/-! ### The state an instruction executes in -/

/-- The state after the fetches of an instruction: IP is the address of the byte following its last
operand byte, modulo 2^16 (spec/40_step_and_fetch.md R115, R116; spec/10_state.md R25). -/
def afterFetch (m : Mnemonic) (s : State) : State := s.setReg .ip (s.reg .ip + BitVec.ofNat 16 m.length)

/-! ### The stack (spec/44_stack.md R160, R161) -/

/-- `push(v)` (R160). -/
def push (v : Word) (s : State) : Except Fault State := do
  let t ← memWrite16 s (s.reg .sp) v
  pure ((t.setReg .sp (t.reg .sp - 2#16)).setFsz (t.fsz + 2#16))

/-- `pop()` (R161). -/
def pop (s : State) : Except Fault (Word × State) := do
  let t := (s.setReg .sp (s.reg .sp + 2#16)).setFsz (s.fsz - 2#16)
  let v ← memRead16 t (t.reg .sp)
  pure (v, t)

/-- Pushes of several words, the first one first. -/
def pushAll : List Word → State → Except Fault State
  | [], s => pure s
  | v :: vs, s => do
    let t ← push v s
    pushAll vs t

/-- `x[r] <- pop()`. -/
def popInto (r : Reg) (s : State) : Except Fault State := do
  let (v, t) ← pop s
  pure (t.setReg r v)

/-- Pops into several registers, the first one first. -/
def popIntoAll : List Reg → State → Except Fault State
  | [], s => pure s
  | r :: rs, s => do
    let t ← popInto r s
    popIntoAll rs t

/-- `repeat n times: pop()`, results discarded; each is a full `pop()` (spec/45_call_return.md R184, D18). -/
def popDiscard : Nat → State → Except Fault State
  | 0, s => pure s
  | n + 1, s => do
    let (_, t) ← pop s
    popDiscard n t

/-! ### Call and return (spec/45_call_return.md R181, R184) -/

/-- R1 to R8, in the order a call pushes them (R181). -/
def savedRegs : List Reg := [.r1, .r2, .r3, .r4, .r5, .r6, .r7, .r8]

/-- `save_state()` (R181): push R1 to R8 and IP, push the frame-size word, `FP <- SP`, `fsz <- 0`. No push
changes R1 to R8 or IP, so the nine values are those on entry. -/
def saveState (s : State) : Except Fault State := do
  let t ← pushAll (savedRegs.map s.reg ++ [s.reg .ip]) s
  let t ← push (t.fsz + 2#16) t
  pure ((t.setReg .fp (t.reg .sp)).setFsz 0)

/-- `restore_state()` (R184). -/
def restoreState (s : State) : Except Fault State := do
  let fpa := s.reg .fp
  let (fs, t) ← pop (s.setReg .sp fpa)
  let t := t.setFsz fs
  let t ← popIntoAll (.ip :: savedRegs.reverse) t
  let (n, t) ← pop t
  let t ← popDiscard n.toNat t
  pure ((t.setReg .fp (fpa + fs)).setFsz 0)

end Sys2Proof.Machine
end

