-- ==== Sys2Proof/Machine/Operands.lean ====
section
/-! DEFINITION. The operand forms of an executing instruction. The machine has immediate (`lit16`), register
(`regsel`), raw register index (`regidx`), absolute (`addr16`) and implicit stack operands, and no other
addressing mode (spec/41_moves.md R134). An immediate is its own value; stack operands are `push` and `pop`. -/

namespace Sys2Proof.Machine

/-- `RfRead(off)`: the word access at a byte offset of the 24-byte register-file store
(spec/10_state.md R24). -/
def rfRead (s : State) (off : Nat) : Except Fault Word :=
  if 24 < off + 2 then .error .outOfBounds
  else .ok (s.reg (Reg.nth (off / 2)))

/-- The value of a `regidx` operand: the store is read at byte offset `2 * index`, no reduction
(spec/30_encoding.md R88). -/
def readIndex (s : State) (i : Byte) : Except Fault Word := rfRead s (2 * i.toNat)

/-- The value of a `regsel` source operand. -/
def readSel (s : State) (r : Reg) : Word := s.reg r

/-- The write of a `regsel` destination operand; with IP as the destination it is a jump
(spec/10_state.md R22). -/
def writeSel (s : State) (r : Reg) (v : Word) : State := s.setReg r v

/-- The word an `addr16` source operand names: an absolute byte address (spec/30_encoding.md R86). -/
def loadAbs (s : State) (addr : Word) : Except Fault Word := memRead16 s addr

/-- The store of a word at an `addr16` destination operand. -/
def storeAbs (s : State) (addr v : Word) : Except Fault State := memWrite16 s addr v

/-- `pc <- target` (spec/00_scope.md R9): no target is illegal in itself (spec/43_jump.md R151). -/
def jumpTo (s : State) (target : Word) : State := s.setReg .ip target

end Sys2Proof.Machine
end

