-- ==== Sys2Proof/Machine/Flags.lean ====
section
/-! DEFINITION. "The machine has no status flags, no condition codes and no predicates" (spec/10_state.md R31).
What stands here is what it has in their place: the sum of ADD_REG_REG, which records no carry, overflow,
zero or sign, and the one condition of the machine, JMP_NOT_EQ's comparison with ACC. -/

namespace Sys2Proof.Machine

/-- `(a + b) mod 65536`; overflow discards the carry, raises nothing, records nothing
(spec/42_arithmetic.md R141). -/
def addWords (a b : Word) : Word := BitVec.ofNat 16 (a.toNat + b.toNat)

/-- The condition of JMP_NOT_EQ: the literal differs from the value of ACC (spec/43_jump.md R150). -/
def notEqAcc (s : State) (lit : Word) : Bool := lit != s.reg .acc

end Sys2Proof.Machine
end

