-- ==== Sys2Proof/Machine/Arithmetic.lean ====
section
/-! DEFINITION. The one arithmetic instruction (spec/42_arithmetic.md). -/

namespace Sys2Proof.Machine

/-- ADD_REG_REG: "ACC ← reg[i1] + reg[i2] (16-bit wraparound, no overflow flag)", the operands raw
indices of the register-file store (R140). -/
def execAddRegReg (i1 i2 : Byte) (s : State) : Host.Outcome State Fault Refusal :=
  let t := afterFetch .addRegReg s
  commit s do
    let v1 ← readIndex t i1
    let v2 ← readIndex t i2
    pure (t.setReg .acc (addWords v1 v2))

end Sys2Proof.Machine
end

