-- ==== Sys2Proof/Machine/CallReturn.lean ====
section
/-! DEFINITION. The two calls and the return (spec/45_call_return.md). -/

namespace Sys2Proof.Machine

/-- CAL_LIT: "save CPU state (see 4.4); IP ← address" (R182). -/
def execCalLit (addr : Word) (s : State) : Host.Outcome State Fault Refusal :=
  commit s do
    let t ← saveState (afterFetch .calLit s)
    pure (jumpTo t addr)

/-- CAL_REG: "save CPU state; IP ← register value (indirect call)"; the register is read before the state
save (R183). -/
def execCalReg (rs : Reg) (s : State) : Host.Outcome State Fault Refusal :=
  let t := afterFetch .calReg s
  let addr := readSel t rs
  commit s do
    let u ← saveState t
    pure (jumpTo u addr)

/-- RET: "restore CPU state (see 4.4)" (R185). -/
def execRet (s : State) : Host.Outcome State Fault Refusal :=
  commit s (restoreState (afterFetch .ret s))

end Sys2Proof.Machine
end

