-- ==== Sys2Proof/Machine/Jump.lean ====
section
/-! DEFINITION. The one branch instruction (spec/43_jump.md). -/

namespace Sys2Proof.Machine

/-- JMP_NOT_EQ: "if literal ≠ ACC then IP ← address"; otherwise IP keeps the value the fetches left
(R150). -/
def execJmpNotEq (lit addr : Word) (s : State) : Host.Outcome State Fault Refusal :=
  let t := afterFetch .jmpNotEq s
  commit s (.ok (if notEqAcc t lit then jumpTo t addr else t))

end Sys2Proof.Machine
end

