-- ==== Sys2Proof/Machine/Moves.lean ====
section
/-! DEFINITION. The four moves (spec/41_moves.md). Each meaning runs from the state before the step, with the
fetches done by `afterFetch`, and commits or discards as a whole (spec/00_scope.md R10). -/

namespace Sys2Proof.Machine

/-- MOV_LIT_REG: "register ← literal" (R130). -/
def execMovLitReg (lit : Word) (rd : Reg) (s : State) : Host.Outcome State Fault Refusal :=
  commit s (.ok (writeSel (afterFetch .movLitReg s) rd lit))

/-- MOV_REG_REG: "registerTo ← registerFrom", the first selector the source (R131, D5). -/
def execMovRegReg (rs rd : Reg) (s : State) : Host.Outcome State Fault Refusal :=
  let t := afterFetch .movRegReg s
  commit s (.ok (writeSel t rd (readSel t rs)))

/-- MOV_REG_MEM: "memory[address] ← register", a big-endian word (R132, D6). -/
def execMovRegMem (rs : Reg) (addr : Word) (s : State) : Host.Outcome State Fault Refusal :=
  let t := afterFetch .movRegMem s
  commit s (storeAbs t addr (readSel t rs))

/-- MOV_MEM_REG: "register ← memory[address]", a big-endian word (R133, D6). -/
def execMovMemReg (addr : Word) (rd : Reg) (s : State) : Host.Outcome State Fault Refusal :=
  let t := afterFetch .movMemReg s
  commit s do
    let v ← loadAbs t addr
    pure (writeSel t rd v)

end Sys2Proof.Machine
end

