-- ==== Sys2Proof/Machine/Stack.lean ====
section
/-! DEFINITION. The stack instructions (spec/44_stack.md). -/

namespace Sys2Proof.Machine

/-- PUSH_LIT: "push(literal)" (R162). -/
def execPushLit (lit : Word) (s : State) : Host.Outcome State Fault Refusal :=
  commit s (push lit (afterFetch .pushLit s))

/-- PUSH_REG: "push(register value)"; the value is read before the decrement (R163). -/
def execPushReg (rs : Reg) (s : State) : Host.Outcome State Fault Refusal :=
  let t := afterFetch .pushReg s
  commit s (push (readSel t rs) t)

/-- POP: "register ← pop()"; the register write comes after the increment of SP (R164). -/
def execPop (rd : Reg) (s : State) : Host.Outcome State Fault Refusal :=
  commit s (popInto rd (afterFetch .pop s))

end Sys2Proof.Machine
end

