-- ==== Sys2Proof/Machine/Dispatch.lean ====
section
/-! DEFINITION. One arm per instruction (spec/40_step_and_fetch.md R111). -/

namespace Sys2Proof.Machine

def exec (i : Instr) (s : State) : Host.Outcome State Fault Refusal :=
  match i with
  | .movLitReg lit rd => Sys2Proof.Machine.execMovLitReg lit rd s
  | .movRegReg rs rd => Sys2Proof.Machine.execMovRegReg rs rd s
  | .movRegMem rs addr => Sys2Proof.Machine.execMovRegMem rs addr s
  | .movMemReg addr rd => Sys2Proof.Machine.execMovMemReg addr rd s
  | .addRegReg i1 i2 => Sys2Proof.Machine.execAddRegReg i1 i2 s
  | .jmpNotEq lit addr => Sys2Proof.Machine.execJmpNotEq lit addr s
  | .pushLit lit => Sys2Proof.Machine.execPushLit lit s
  | .pushReg rs => Sys2Proof.Machine.execPushReg rs s
  | .pop rd => Sys2Proof.Machine.execPop rd s
  | .calLit addr => Sys2Proof.Machine.execCalLit addr s
  | .calReg rs => Sys2Proof.Machine.execCalReg rs s
  | .ret => Sys2Proof.Machine.execRet s

end Sys2Proof.Machine
end

