-- ==== Sys2Proof/Machine/Fetch.lean ====
section
/-! DEFINITION. The fetch primitives and the unrecognised opcode (spec/40_step_and_fetch.md R112 to R118). -/

namespace Sys2Proof.Machine

/-- `fetch8()` (R112). -/
def fetch8 (s : State) : Except Fault (Byte × State) := do
  let b ← memRead8 s (s.reg .ip)
  pure (b, s.setReg .ip (s.reg .ip + 1#16))

/-- `fetch16()` (R113): one word access, so at 0xFFFF it faults and does not wrap. -/
def fetch16 (s : State) : Except Fault (Word × State) := do
  let w ← memRead16 s (s.reg .ip)
  pure (w, s.setReg .ip (s.reg .ip + 2#16))

/-- `fetchreg()` (R114): a byte reduced to a register. -/
def fetchReg (s : State) : Except Fault (Reg × State) := do
  let (b, t) ← fetch8 s
  pure (Reg.ofSelector b, t)

/-- What the fetches of a step yield. -/
inductive Fetched where
  /-- an instruction, all its operands fetched -/
  | instr (i : Instr)
  /-- an opcode byte that matches none of the twelve values of OPC -/
  | unrecognised (b : Byte)
  deriving DecidableEq, Repr

/-- The fetches of a step: the opcode byte, then all operands in the order of its layout, before any
effect (R111, R115). -/
def fetchInstr (s : State) : Except Fault Fetched := do
  let (op, t) ← fetch8 s
  match s.params.opc.lookup op with
  | none => pure (.unrecognised op)
  | some m => do
    let (i, _) ← readOperands fetch8 fetchReg fetch16 m t
    pure (.instr i)

/-- `exec_unrecognised()` (R117): under `fault` raise IllegalInstruction; under `ignore` only the IP
advance of the opcode fetch remains. -/
def execUnrecognised (s : State) : Host.Outcome State Fault Refusal :=
  match s.params.illegalPolicy with
  | .fault => commit s (.error .illegalInstruction)
  | .ignore => commit s (.ok (s.setReg .ip (s.reg .ip + 1#16)))

/-- Bytes written one after another from an address on, modulo 2^16, those outside main memory left out. -/
def storeBytes : List Byte → Word → State → State
  | [], _, s => s
  | b :: bs, a, s =>
    storeBytes bs (a + 1#16) (if a.toNat < s.params.memBytes then s.setMem (s.mem.write a.toNat b) else s)

end Sys2Proof.Machine
end

