-- ==== Sys2Proof/Machine/Step.lean ====
section
/-! DEFINITION. One step (spec/40_step_and_fetch.md R110, R111), and where an instruction is placed for the
next step to fetch it. -/

namespace Sys2Proof.Machine

/-- `step()` (R110). With the latch set nothing changes and the answer is the latched fault (R208). Otherwise
the step fetches and executes one instruction; a fetch that raises takes the fault (R118). -/
def step (s : State) : Host.Outcome State Fault Refusal :=
  match s.fault with
  | some e => .fault e
  | none =>
    match fetchInstr s with
    | .error e => commit s (.error e)
    | .ok (.unrecognised _) => execUnrecognised s
    | .ok (.instr i) => exec i s

/-- `s` with the bytes of one instruction stored at IP, where `step` fetches, and the latch clear, without
which no step fetches. This stands for the loader's write before the first step
(spec/70_reset_and_hazards.md R246; notes/assumptions/6.md). -/
def State.withFetchWord (s : State) (nbits w : Nat) : State :=
  storeBytes (tableBytes nbits w) (s.reg .ip) { s with fault := none }

end Sys2Proof.Machine
end

