-- ==== Sys2Proof/Machine/HostInterface.lean ====
section
/-! DEFINITION. What the host may do to the machine between steps: request a step, request a reset, peek, and,
before the first step only, load (spec/70_reset_and_hazards.md R246 to R252; spec/40_step_and_fetch.md R110,
R119). -/

namespace Sys2Proof.Machine

/-- The answer of the core to a step request (R110). -/
inductive Answer where
  /-- the step committed -/
  | completed
  /-- the step raised, or the latch was set already -/
  | fault (cause : Fault)
  /-- the model gives the instruction no meaning; no instruction of the table ends here -/
  | refused (why : Refusal)
  deriving DecidableEq, Repr

/-- One step request: the state it leaves and the answer (R110). A step that raises leaves its cause in the
latch (R206); a step request with the latch set changes nothing and answers the latched cause (R208). -/
def stepRequest (s : State) : State × Answer :=
  match step s with
  | .next t =>
    match t.fault with
    | none => (t, .completed)
    | some e => (t, .fault e)
  | .fault e => (s, .fault e)
  | .refused r => (s, .refused r)

/-- `run_for(n)`: `n` step requests, stopping early at the first that returns a fault (R119). DESIGN CHOICE (unsafe):
the spec gives answers of steps only (R247); the model lets a run answer what its last step request answered, and a
run of zero steps `completed`, whatever the latch holds; notes/assumptions/24.md. -/
def runFor : Nat → State → State × Answer
  | 0, s => (s, .completed)
  | n + 1, s =>
    match stepRequest s with
    | (t, .completed) => runFor n t
    | (t, a) => (t, a)

/-- `run_until_halt()` steps until a step returns a fault (R119, D12); it comes to its end at `t` with the
cause `e` exactly when some number of steps does. A run that never faults never ends. -/
def HaltsAt (s t : State) (e : Fault) : Prop := ∃ n, runFor n s = (t, .fault e)

/-- A reset request, at any time between steps: the state of reset, memory as it stands (R36, R240). -/
def resetRequest (s : State) : State := State.resetWith s.params s.mem

/-- The loader's byte writes, one after another from an address on, before the first step (R246); each is
`write_byte` (spec/20_memory.md R54). -/
def loadBytes : Nat → List Byte → State → Except Fault State
  | _, [], s => pure s
  | a, b :: bs, s =>
    if s.params.memBytes ≤ a then .error .outOfBounds
    else do
      let t ← memWrite8 s (BitVec.ofNat 16 a) b
      loadBytes (a + 1) bs t

/-- The machine at the first step: reset, with a program image loaded from address 0 (R242, R246). -/
def launch (p : Params) (image : List Byte) : Except Fault State := loadBytes 0 image (State.resetWith p [])

/-- The name of a register (spec/10_state.md R21). -/
def Reg.name : Reg → String
  | .ip => "IP"
  | .acc => "ACC"
  | .r1 => "R1"
  | .r2 => "R2"
  | .r3 => "R3"
  | .r4 => "R4"
  | .r5 => "R5"
  | .r6 => "R6"
  | .r7 => "R7"
  | .r8 => "R8"
  | .sp => "SP"
  | .fp => "FP"

/-- The register of a name, if it is one of the twelve (R249, R250). -/
def Reg.ofName (n : String) : Option Reg :=
  [Reg.ip, .acc, .r1, .r2, .r3, .r4, .r5, .r6, .r7, .r8, .sp, .fp].find? fun r => Reg.name r == n

/-- `peek_register(name)`: the value of the named register; a name outside the twelve answers UnknownRegister
and does not touch the latch (R249, R250). -/
def peekRegister (s : State) (name : String) : Except Fault Word :=
  match Reg.ofName name with
  | some r => .ok (s.reg r)
  | none => .error .unknownRegister

/-- `peek_memory(address)`: the big-endian word, OutOfBounds to the host if it does not fit (R251). -/
def peekMemory (s : State) (addr : Word) : Except Fault Word := memRead16 s addr

end Sys2Proof.Machine
end

