-- ==== Sys2Proof/Safety.lean ====
section
/-! DEFINITION. The terms claims use: the invariant of the machine, safe runs, what it means that a step leaves
something unchanged, and which fetches lie inside memory. -/

namespace Sys2Proof.Machine

/-- The invariant every step keeps: the parameters satisfy spec/00_scope.md R6, memory is in its canonical
form and lists only addresses that exist (spec/10_state.md R32), and the latch never holds the reserved
cause (spec/60_exceptions.md R203). -/
structure StateInv (s : State) : Prop where
  params : s.params.WellFormed
  memWf : s.mem.wf
  memWithin : s.mem.within s.params.memBytes
  fault : s.fault ≠ some .unknownRegister

/-- A run of `n` steps that meets no fault. -/
def SafeFor (n : Nat) (s : State) : Prop := (runFor n s).2 = .completed

/-- Neither the parameters nor the latch differ. -/
def SameControl (s t : State) : Prop := t.params = s.params ∧ t.fault = s.fault

/-- Every register outside the list keeps its value. -/
def SameRegsExcept (s t : State) (rs : List Reg) : Prop := ∀ r, r ∉ rs → t.reg r = s.reg r

/-- Every byte of memory reads as before. -/
def SameMem (s t : State) : Prop := ∀ a, t.byteAt a = s.byteAt a

/-- Every byte outside the two-byte words at the listed addresses reads as before. -/
def SameMemExcept (s t : State) (ws : List Word) : Prop :=
  ∀ a, (∀ w ∈ ws, a ≠ w.toNat ∧ a ≠ w.toNat + 1) → t.byteAt a = s.byteAt a

/-- The word at an address lies inside main memory (spec/20_memory.md R56). -/
def WordInside (s : State) (a : Word) : Prop := a.toNat + 2 ≤ s.params.memBytes

/-- The bytes from an address on, addresses modulo 2^16. -/
def bytesFrom (s : State) (a : Word) : Nat → List Byte
  | 0 => []
  | n + 1 => s.byteAt a.toNat :: bytesFrom s (a + 1#16) n

/-- The offset and width of each operand field, from a first offset on. -/
def fieldSpans : Nat → List OperandKind → List (Nat × Nat)
  | _, [] => []
  | o, k :: ks => (o, k.width) :: fieldSpans (o + k.width) ks

/-- The offset and width of every fetch of a row: the opcode byte, then each operand (spec/20_memory.md R58). -/
def fetchSpans (m : Mnemonic) : List (Nat × Nat) := (0, 1) :: fieldSpans 1 m.format.layout

/-- Every fetch of a row's instruction at IP lies inside memory, each checked at the address it uses
(spec/40_step_and_fetch.md R118). -/
def Fetchable (s : State) (m : Mnemonic) : Prop :=
  ∀ f ∈ fetchSpans m, (s.reg .ip + BitVec.ofNat 16 f.1).toNat + f.2 ≤ s.params.memBytes

/-- The addresses `n` successive pushes write, from SP down: SP, SP-2, … (spec/20_memory.md R58). -/
def pushSlots (sp : Word) (n : Nat) : List Word := (List.range n).map fun k => sp - BitVec.ofNat 16 (2 * k)

/-- The addresses `n` successive pops read, from SP up: SP+2, SP+4, … (R58). -/
def popSlots (sp : Word) (n : Nat) : List Word := (List.range n).map fun k => sp + BitVec.ofNat 16 (2 * k + 2)

/-- The argument count a RET finds in the frame at FP (spec/45_call_return.md R184). -/
def retCount (s : State) : Nat := (s.wordAt (s.reg .fp + 22#16)).toNat

/-- The destination register of an instruction that names one by a selector (spec/10_state.md R22). -/
def selectedDest : Instr → Option Reg
  | .movLitReg _ rd => some rd
  | .movRegReg _ rd => some rd
  | .movRegMem _ _ => none
  | .movMemReg _ rd => some rd
  | .addRegReg _ _ => none
  | .jmpNotEq _ _ => none
  | .pushLit _ => none
  | .pushReg _ => none
  | .pop rd => some rd
  | .calLit _ => none
  | .calReg _ => none
  | .ret => none

end Sys2Proof.Machine
end

