-- ==== Sys2Proof/Certificates/Slice0/Obligations.lean ====
section
/-! DEFINITION. The statements for the provers. Each docstring names the rules of spec/ it rests on. The result
statements are at the level of `exec`, from the state before the step: IP is the address of the opcode byte
there, so `s.reg .ip + L` is the address after an instruction of L bytes. A docstring names the decision D<n>
(spec/92_eei_decisions.md) or the derivation where the spec marks what a statement says as its own. -/

open Sys2Proof Sys2Proof.Machine

/-! ### Encoding and decoding (spec/30_encoding.md) -/

/-- Under distinct opcode values, decoding what the encoder wrote gives the instruction back and leaves what
follows it (R82, R85 to R88). -/
def Obligations.DecodeInvertsEncode : Prop :=
  ∀ o : OpcodeMap, o.Injective → ∀ (i : Instr) (rest : List Byte), decode o (encode o i ++ rest) = .ok (i, rest)

/-- What the decoder takes from the front of the bytes is the opcode byte of the instruction and exactly as many
bytes as that opcode fixes; nothing after them matters (R80, R83). -/
def Obligations.DecodeConsumesOpcodeLength : Prop :=
  ∀ (o : OpcodeMap) (bs rest : List Byte) (i : Instr), decode o bs = .ok (i, rest) →
    ∃ used, bs = used ++ rest ∧ used.length = i.length ∧ used.head? = some (o.get i.mnemonic) ∧
      ∀ more, decode o (used ++ more) = .ok (i, more)

/-- R87: every selector byte is valid and selects the register numbered `byte mod 12`, in every operand position
that takes a selector; the canonical selector of register i is the byte i. -/
def Obligations.SelectorByteReducedModulo12 : Prop :=
  (∀ r : Reg, r.selector.toNat = r.number ∧ Reg.ofSelector r.selector = r) ∧
  ∀ o : OpcodeMap, o.Injective → ∀ (h l b c : Byte) (r q : Reg) (rest : List Byte),
    r.number = b.toNat % 12 → q.number = c.toNat % 12 →
    decode o (o.movLitReg :: h :: l :: b :: rest) = .ok (.movLitReg (bigEndian h l) r, rest) ∧
    decode o (o.movRegReg :: b :: c :: rest) = .ok (.movRegReg r q, rest) ∧
    decode o (o.movRegMem :: b :: h :: l :: rest) = .ok (.movRegMem r (bigEndian h l), rest) ∧
    decode o (o.movMemReg :: h :: l :: b :: rest) = .ok (.movMemReg (bigEndian h l) r, rest) ∧
    decode o (o.pushReg :: b :: rest) = .ok (.pushReg r, rest) ∧
    decode o (o.pop :: b :: rest) = .ok (.pop r, rest) ∧
    decode o (o.calReg :: b :: rest) = .ok (.calReg r, rest)

/-- R88: a raw index byte is not reduced; 0 to 11 name that register, 12 to 255 fall outside the store. -/
def Obligations.AddOperandsAreRawIndices : Prop :=
  (∀ o : OpcodeMap, o.Injective → ∀ (b c : Byte) (rest : List Byte),
    decode o (o.addRegReg :: b :: c :: rest) = .ok (.addRegReg b c, rest)) ∧
  ∀ (s : State) (b : Byte),
    (∀ r : Reg, r.number = b.toNat → readIndex s b = .ok (s.reg r)) ∧
    (12 ≤ b.toNat → readIndex s b = .error .outOfBounds)

/-- R89, R111: an opcode byte is unrecognised exactly when it is none of the twelve values, and under distinct
values each of the twelve selects its own row. -/
def Obligations.OpcodeByteSelectsItsRow : Prop :=
  ∀ (o : OpcodeMap) (b : Byte) (bs : List Byte),
    (decode o (b :: bs) = .error (.unrecognised b) ↔ ∀ m : Mnemonic, o.get m ≠ b) ∧
    (o.Injective → ∀ m : Mnemonic, o.lookup b = some m ↔ o.get m = b)

/-- R90: no operand byte makes an instruction illegal; an opcode followed by enough bytes always decodes, to an
instruction of its own row. -/
def Obligations.OperandBytesNeverIllegal : Prop :=
  ∀ o : OpcodeMap, o.Injective → ∀ (m : Mnemonic) (bs : List Byte), m.length ≤ bs.length + 1 →
    ∃ i rest, decode o (o.get m :: bs) = .ok (i, rest) ∧ i.mnemonic = m ∧ i.wellFormed = true

/-- R93: the encoding examples, one per format, under the default opcode numbers. Derived: the numbers are
no rule of the source, the spec presumes them (D1, notes/assumptions/1.md). -/
def Obligations.WorkedEncodingsDecode : Prop :=
  ∀ p ∈ ([(.movLitReg 0x1234 .r1, [0x10, 0x12, 0x34, 0x02]), (.movRegReg .r1 .r2, [0x11, 0x02, 0x03]),
      (.movRegMem .acc 0x0100, [0x12, 0x01, 0x01, 0x00]), (.movMemReg 0x0100 .r1, [0x13, 0x01, 0x00, 0x02]),
      (.addRegReg 2 3, [0x14, 0x02, 0x03]), (.jmpNotEq 0x0003 0x0000, [0x15, 0x00, 0x03, 0x00, 0x00]),
      (.pushLit 0x3333, [0x17, 0x33, 0x33]), (.pushReg .r1, [0x18, 0x02]), (.pop .r2, [0x1A, 0x03]),
      (.calLit 0x3000, [0x5E, 0x30, 0x00]), (.calReg .r3, [0x5F, 0x04]), (.ret, [0x60])] :
      List (Instr × List Byte)),
    decode OpcodeMap.default p.2 = .ok (p.1, []) ∧ encode OpcodeMap.default p.1 = p.2

/-! ### Registers and reset (spec/10_state.md) -/

/-- R22, R23: a register holds the last value written to it, and a write to one register reaches no other and
nothing else of the state. -/
def Obligations.RegisterWriteThenRead : Prop :=
  ∀ (s : State) (r : Reg) (v : Word), (writeSel s r v).reg r = v ∧ SameRegsExcept s (writeSel s r v) [r] ∧
    (writeSel s r v).fsz = s.fsz ∧ SameControl s (writeSel s r v) ∧ (writeSel s r v).mem = s.mem

/-- R24: RfRead reads the register at a byte offset of the 24-byte store and raises beyond it (the raise is the
spec's decision D3). -/
def Obligations.RegisterStoreReadIsBoundsChecked : Prop :=
  ∀ (s : State) (off : Nat),
    (24 < off + 2 → rfRead s off = .error .outOfBounds) ∧
    (∀ r : Reg, off = 2 * r.number → rfRead s off = .ok (s.reg r))

/-- R35: the reset values, for every parameter set and every memory image. Those of `fsz`, the latch and memory are
the spec's decisions D8, D9, D11. -/
def Obligations.ResetLeavesTheStatedValues : Prop :=
  ∀ (p : Params) (m : Memory) (r : Reg),
    (State.resetWith p m).reg r =
      (if r = .sp ∨ r = .fp then BitVec.ofNat 16 (p.memBytes - 2) else 0) ∧
    (State.resetWith p m).fsz = 0 ∧ (State.resetWith p m).faultCode = 0 ∧ (State.resetWith p m).mem = m ∧
    (p.memBytes = 65536 → (State.resetWith p m).reg .sp = 0xFFFE) ∧
    (p.memBytes = 256 → (State.resetWith p m).reg .sp = 0x00FE)

/-- R36, R240: a reset request, in any state, gives the registers, the counter and the latch their reset values and
leaves memory as it stands (the spec's decision D11); a step that faulted, once or many times over, leaves nothing
that a reset does not undo. What a run of steps answers is the model's choice (notes/assumptions/24.md). -/
def Obligations.ResetRequestKeepsMemory : Prop :=
  ∀ s : State, SameMem s (resetRequest s) ∧ (resetRequest s).params = s.params ∧
    (∀ r : Reg, (resetRequest s).reg r = if r = .sp ∨ r = .fp then BitVec.ofNat 16 (s.params.memBytes - 2) else 0) ∧
    (resetRequest s).fsz = 0 ∧ (resetRequest s).fault = none ∧
    ∀ (n : Nat) (t : State) (e : Fault), stepRequest s = (t, .fault e) →
      runFor (n + 1) s = (t, .fault e) ∧ runFor (n + 1) t = (t, .fault e) ∧ resetRequest t = resetRequest s

/-! ### Memory access (spec/20_memory.md) -/

/-- R52, R53: both reads check their bounds; the sum `addr + 2` is not reduced, so a word read at 0xFFFF faults
at every memory size. -/
def Obligations.MemoryReadsAreBoundsChecked : Prop :=
  ∀ (s : State) (a : Word),
    (s.params.memBytes < a.toNat + 1 → memRead8 s a = .error .outOfBounds) ∧
    (a.toNat + 1 ≤ s.params.memBytes → memRead8 s a = .ok (s.byteAt a.toNat)) ∧
    (s.params.memBytes < a.toNat + 2 → memRead16 s a = .error .outOfBounds) ∧
    (a.toNat + 2 ≤ s.params.memBytes →
      memRead16 s a = .ok (bigEndian (s.byteAt a.toNat) (s.byteAt (a.toNat + 1)))) ∧
    (s.params.memBytes ≤ 65536 → a = 0xFFFF → memRead16 s a = .error .outOfBounds)

/-- R51: words are big-endian, in data and in operands, and a mixed-width access sees plain bytes: after a word is
written its high byte stands at the address and its low byte after it, a word read one byte on takes the low byte
first, and a 16-bit operand fetched there is the word. -/
def Obligations.WordsAreBigEndian : Prop :=
  ∀ (s : State) (a v : Word), s.params.WellFormed → WordInside s a →
    ∃ (t : State) (hi lo : Byte), memWrite16 s a v = .ok t ∧ hi.toNat = v.toNat / 256 ∧ lo.toNat = v.toNat % 256 ∧
      memRead8 t a = .ok hi ∧ memRead8 t (a + 1#16) = .ok lo ∧ memRead16 t a = .ok v ∧
      (WordInside s (a + 1#16) → memRead16 t (a + 1#16) = .ok (bigEndian lo (s.byteAt (a.toNat + 2)))) ∧
      ∀ u : State, u.mem = t.mem → u.params = t.params → u.reg .ip = a →
        fetch16 u = .ok (v, u.setReg .ip (a + 2#16))

/-- R55: a word write inside memory puts the high byte at the address and the low byte after it and changes no
other byte; outside memory it raises. -/
def Obligations.WordWriteStoresBigEndian : Prop :=
  ∀ (s : State) (a v : Word),
    (WordInside s a → ∃ t, memWrite16 s a v = .ok t ∧ t.byteAt a.toNat = highByte v ∧
      t.byteAt (a.toNat + 1) = lowByte v ∧ SameMemExcept s t [a] ∧ memRead16 t a = .ok v ∧
      t.regs = s.regs ∧ t.fsz = s.fsz ∧ SameControl s t) ∧
    (¬ WordInside s a → memWrite16 s a v = .error .outOfBounds)

/-- R54: the byte write of the memory contract, which the loader uses. -/
def Obligations.ByteWriteStoresOneByte : Prop :=
  ∀ (s : State) (a : Word) (v : Byte),
    (a.toNat + 1 ≤ s.params.memBytes → ∃ t, memWrite8 s a v = .ok t ∧ t.byteAt a.toNat = v ∧
      (∀ b, b ≠ a.toNat → t.byteAt b = s.byteAt b) ∧ t.regs = s.regs ∧ t.fsz = s.fsz ∧ SameControl s t) ∧
    (s.params.memBytes < a.toNat + 1 → memWrite8 s a v = .error .outOfBounds)

/-- R246, R242: loading an image that fits gives the reset state with the image's bytes at address 0 on, in a
state that satisfies the invariant. The bytes not loaded read as the model's choice (notes/assumptions/5.md; the
spec's examples take 0x00, D11). -/
def Obligations.LaunchLoadsTheImage : Prop :=
  ∀ (p : Params) (image : List Byte), p.WellFormed → image.length ≤ p.memBytes →
    ∃ s, launch p image = .ok s ∧ StateInv s ∧ s.regs = (State.resetWith p []).regs ∧ s.fsz = 0 ∧ s.fault = none ∧
      s.params = p ∧ (∀ k (h : k < image.length), s.byteAt k = image[k]) ∧
      (∀ a, image.length ≤ a → s.byteAt a = Memory.unwritten)

/-! ### The step (spec/40_step_and_fetch.md, spec/60_exceptions.md) -/

/-- R112 to R114: the fetch primitives read at IP and advance it modulo 2^16; the register fetch reduces modulo 12
and fails only as the byte fetch does. -/
def Obligations.FetchReadsAtIpAndAdvances : Prop :=
  ∀ s : State,
    ((s.reg .ip).toNat + 1 ≤ s.params.memBytes →
      fetch8 s = .ok (s.byteAt (s.reg .ip).toNat, s.setReg .ip (s.reg .ip + 1#16)) ∧
      ∃ r : Reg, r.number = (s.byteAt (s.reg .ip).toNat).toNat % 12 ∧
        fetchReg s = .ok (r, s.setReg .ip (s.reg .ip + 1#16))) ∧
    (s.params.memBytes < (s.reg .ip).toNat + 1 →
      fetch8 s = .error .outOfBounds ∧ fetchReg s = .error .outOfBounds) ∧
    (WordInside s (s.reg .ip) → fetch16 s =
      .ok (bigEndian (s.byteAt (s.reg .ip).toNat) (s.byteAt ((s.reg .ip).toNat + 1)),
        s.setReg .ip (s.reg .ip + 2#16))) ∧
    (¬ WordInside s (s.reg .ip) → fetch16 s = .error .outOfBounds)

/-- R118, R27 (derived, D7): with all 65536 bytes a byte fetch at 0xFFFF succeeds and leaves IP = 0x0000, while a word fetch
there faults. -/
def Obligations.ByteFetchWrapsAndWordFetchFaults : Prop :=
  ∀ s : State, s.params.memBytes = 65536 → s.reg .ip = 0xFFFF →
    (∃ t, fetch8 s = .ok (s.byteAt 0xFFFF, t) ∧ t.reg .ip = 0) ∧ fetch16 s = .error .outOfBounds

/-- R111, R115, R116: when every fetch lies inside memory and the bytes at IP decode to an instruction, the step
of an unlatched machine is that instruction's execution at that state; the execution sees IP past the
instruction's bytes (all fetches before all effects is the spec's decision D13). -/
def Obligations.StepRunsTheDecodedInstruction : Prop :=
  ∀ (s : State) (i : Instr) (rest : List Byte), s.params.WellFormed → s.fault = none →
    Fetchable s i.mnemonic → decode s.params.opc (bytesFrom s (s.reg .ip) 5) = .ok (i, rest) →
    step s = exec i s ∧ (afterFetch i.mnemonic s).reg .ip = s.reg .ip + BitVec.ofNat 16 i.length

/-- R118, R204 (derived): an opcode fetch or an operand fetch outside memory takes OutOfBounds and commits nothing. -/
def Obligations.FetchOutsideMemoryTakesFault : Prop :=
  ∀ s : State, s.fault = none →
    (s.params.memBytes < (s.reg .ip).toNat + 1 → step s = .next (takeFault .outOfBounds s)) ∧
    (∀ m : Mnemonic, s.params.opc.Injective → s.params.opc.get m = s.byteAt (s.reg .ip).toNat →
      ¬ Fetchable s m → step s = .next (takeFault .outOfBounds s))

/-- R117: the step on an unrecognised opcode, under both policies. -/
def Obligations.UnrecognisedOpcodeFollowsThePolicy : Prop :=
  ∀ s : State, s.fault = none → (s.reg .ip).toNat < s.params.memBytes →
    (∀ m : Mnemonic, s.params.opc.get m ≠ s.byteAt (s.reg .ip).toNat) →
    (s.params.illegalPolicy = .fault → step s = .next (takeFault .illegalInstruction s) ∧
      (takeFault .illegalInstruction s).faultCode = 3 ∧ (takeFault .illegalInstruction s).regs = s.regs) ∧
    (s.params.illegalPolicy = .ignore →
      stepRequest s = (s.setReg .ip (s.reg .ip + 1#16), .completed))

/-- R202: IllegalInstruction is raised exactly by a step whose opcode byte is none of the twelve values, under the
policy `fault`; no operand value raises it (decision D4). -/
def Obligations.IllegalInstructionOnlyForUnrecognisedOpcode : Prop :=
  ∀ s : State, s.fault = none →
    ((∃ t, step s = .next t ∧ t.fault = some .illegalInstruction) ↔
      s.params.illegalPolicy = .fault ∧ (s.reg .ip).toNat < s.params.memBytes ∧
        ∀ m : Mnemonic, s.params.opc.get m ≠ s.byteAt (s.reg .ip).toNat)

/-- R208: while the latch is set a step request changes nothing and answers the latched fault again, however
often; reset clears it (decision D9). What a run of steps answers is the model's choice (notes/assumptions/24.md). -/
def Obligations.LatchedFaultIsSticky : Prop :=
  ∀ (s : State) (e : Fault), s.fault = some e →
    step s = .fault e ∧ stepRequest s = (s, .fault e) ∧ (∀ n, runFor (n + 1) s = (s, .fault e)) ∧
    (resetRequest s).fault = none

/-- R206, R207: a step that raises leaves registers, IP, the counter and memory exactly as they were and records
the cause in the latch; it answers the cause (decisions D9, D10). -/
def Obligations.FaultingStepChangesOnlyTheLatch : Prop :=
  ∀ (s t : State) (e : Fault), s.fault = none → step s = .next t → t.fault = some e →
    t = takeFault e s ∧ t.regs = s.regs ∧ t.fsz = s.fsz ∧ t.mem = s.mem ∧ t.params = s.params ∧
    stepRequest s = (t, .fault e) ∧ ((e = .outOfBounds ∧ t.faultCode = 2) ∨
      (e = .illegalInstruction ∧ t.faultCode = 3))

/-- R10: no instruction in any state is refused or stops: it ends in a next state, which either keeps the latch and
the parameters or is the OutOfBounds fault taken from the state before. What else a committed state holds is said by
the result statement of each instruction. -/
def Obligations.ExecutionCommitsOrTakesOutOfBounds : Prop :=
  ∀ (i : Instr) (s : State), ∃ t, exec i s = .next t ∧ (SameControl s t ∨ t = takeFault .outOfBounds s)

/-- R119: `run_for` stops at the first fault, so a larger count ends in the same state with the same fault; and a
run that completed goes on from where it stands (decision D12). What a run itself answers, zero steps among them,
is the model's choice (notes/assumptions/24.md). -/
def Obligations.RunStopsAtTheFirstFault : Prop :=
  ∀ (n m : Nat) (s t : State),
    (∀ e, runFor n s = (t, .fault e) → runFor (n + m) s = (t, .fault e)) ∧
    (runFor n s = (t, .completed) → runFor (n + m) s = runFor m t)

/-! ### Moves (spec/41_moves.md) -/

/-- R130: MOV_LIT_REG completes in every state with the literal in the register (IP as the register makes it a
jump); nothing else changes but IP. -/
def Obligations.MovLitRegResult : Prop :=
  ∀ (s : State) (lit : Word) (rd : Reg), ∃ t, exec (.movLitReg lit rd) s = .next t ∧
    t.reg rd = lit ∧ (rd ≠ .ip → t.reg .ip = s.reg .ip + 4#16) ∧ SameRegsExcept s t [.ip, rd] ∧
    t.fsz = s.fsz ∧ SameControl s t ∧ SameMem s t

/-- R131: MOV_REG_REG completes in every state with the first register's value in the second (the order is the spec's
decision D5); IP as the source reads as the address of the next instruction. -/
def Obligations.MovRegRegResult : Prop :=
  ∀ (s : State) (rs rd : Reg), ∃ t, exec (.movRegReg rs rd) s = .next t ∧
    t.reg rd = (if rs = .ip then s.reg .ip + 3#16 else s.reg rs) ∧
    (rd ≠ .ip → t.reg .ip = s.reg .ip + 3#16) ∧ SameRegsExcept s t [.ip, rd] ∧
    t.fsz = s.fsz ∧ SameControl s t ∧ SameMem s t

/-- R132: MOV_REG_MEM completes when the word at its address operand lies inside memory; it stores the register
there, high byte first, and changes no other byte (the width is the spec's decision D6). -/
def Obligations.MovRegMemResult : Prop :=
  ∀ (s : State) (rs : Reg) (addr : Word), WordInside s addr → ∃ t, exec (.movRegMem rs addr) s = .next t ∧
    t.wordAt addr = (if rs = .ip then s.reg .ip + 4#16 else s.reg rs) ∧
    t.reg .ip = s.reg .ip + 4#16 ∧ SameRegsExcept s t [.ip] ∧
    t.fsz = s.fsz ∧ SameControl s t ∧ SameMemExcept s t [addr]

/-- R133: MOV_MEM_REG completes when the word at its address operand lies inside memory, with that word in the
register (decision D6). -/
def Obligations.MovMemRegResult : Prop :=
  ∀ (s : State) (rd : Reg) (addr : Word), WordInside s addr → ∃ t, exec (.movMemReg addr rd) s = .next t ∧
    t.reg rd = bigEndian (s.byteAt addr.toNat) (s.byteAt (addr.toNat + 1)) ∧
    (rd ≠ .ip → t.reg .ip = s.reg .ip + 4#16) ∧ SameRegsExcept s t [.ip, rd] ∧
    t.fsz = s.fsz ∧ SameControl s t ∧ SameMem s t

/-- R132, R133: a move to or from a word outside memory takes OutOfBounds and commits nothing (decisions D3, D10). -/
def Obligations.MoveOutsideMemoryTakesFault : Prop :=
  ∀ (s : State) (r : Reg) (addr : Word), ¬ WordInside s addr →
    exec (.movRegMem r addr) s = .next (takeFault .outOfBounds s) ∧
    exec (.movMemReg addr r) s = .next (takeFault .outOfBounds s)

/-! ### Arithmetic and jump (spec/42_arithmetic.md, spec/43_jump.md) -/

/-- R140, R141: ADD_REG_REG completes for raw indices 0 to 11, with the sum modulo 65536 of the two registers in
ACC; IP as a source reads as the address of the next instruction, ACC as a source is read before the write. -/
def Obligations.AddRegRegResult : Prop :=
  ∀ (s : State) (i1 i2 : Byte) (r q : Reg), r.number = i1.toNat → q.number = i2.toNat →
    ∃ t, exec (.addRegReg i1 i2) s = .next t ∧
      (t.reg .acc).toNat = ((if r = .ip then s.reg .ip + 3#16 else s.reg r).toNat +
        (if q = .ip then s.reg .ip + 3#16 else s.reg q).toNat) % 65536 ∧
      t.reg .ip = s.reg .ip + 3#16 ∧ SameRegsExcept s t [.ip, .acc] ∧
      t.fsz = s.fsz ∧ SameControl s t ∧ SameMem s t

/-- R140, R88: a raw index of 12 or more in either position takes OutOfBounds and commits nothing (decision D3). -/
def Obligations.AddIndexOutsideStoreTakesFault : Prop :=
  ∀ (s : State) (i1 i2 : Byte), 12 ≤ i1.toNat ∨ 12 ≤ i2.toNat →
    exec (.addRegReg i1 i2) s = .next (takeFault .outOfBounds s)

/-- R150: JMP_NOT_EQ completes in every state; it goes to its absolute target when the literal differs from ACC
and to the next instruction otherwise, and changes nothing but IP. -/
def Obligations.JmpNotEqResult : Prop :=
  ∀ (s : State) (lit addr : Word), ∃ t, exec (.jmpNotEq lit addr) s = .next t ∧
    t.reg .ip = (if lit = s.reg .acc then s.reg .ip + 5#16 else addr) ∧ SameRegsExcept s t [.ip] ∧
    t.fsz = s.fsz ∧ SameControl s t ∧ SameMem s t

/-! ### Stack (spec/44_stack.md) -/

/-- R162, R160: PUSH_LIT completes when the word at SP lies inside memory: the literal there, SP down by 2, the
counter up by 2. -/
def Obligations.PushLitResult : Prop :=
  ∀ (s : State) (lit : Word), WordInside s (s.reg .sp) → ∃ t, exec (.pushLit lit) s = .next t ∧
    t.wordAt (s.reg .sp) = lit ∧ t.reg .sp = s.reg .sp - 2#16 ∧ t.fsz = s.fsz + 2#16 ∧
    t.reg .ip = s.reg .ip + 3#16 ∧ SameRegsExcept s t [.ip, .sp] ∧ SameControl s t ∧
    SameMemExcept s t [s.reg .sp]

/-- R163, R160: PUSH_REG completes when the word at SP lies inside memory; the value is the register's before the
decrement, and for IP the address of the next instruction. -/
def Obligations.PushRegResult : Prop :=
  ∀ (s : State) (rs : Reg), WordInside s (s.reg .sp) → ∃ t, exec (.pushReg rs) s = .next t ∧
    t.wordAt (s.reg .sp) = (if rs = .ip then s.reg .ip + 2#16 else s.reg rs) ∧
    t.reg .sp = s.reg .sp - 2#16 ∧ t.fsz = s.fsz + 2#16 ∧
    t.reg .ip = s.reg .ip + 2#16 ∧ SameRegsExcept s t [.ip, .sp] ∧ SameControl s t ∧
    SameMemExcept s t [s.reg .sp]

/-- R164, R161: POP completes when the word at SP + 2 lies inside memory; the register write comes after the
increment, so POP to SP leaves the popped word there. -/
def Obligations.PopResult : Prop :=
  ∀ (s : State) (rd : Reg), WordInside s (s.reg .sp + 2#16) → ∃ t, exec (.pop rd) s = .next t ∧
    t.reg rd = s.wordAt (s.reg .sp + 2#16) ∧ (rd ≠ .sp → t.reg .sp = s.reg .sp + 2#16) ∧
    (rd ≠ .ip → t.reg .ip = s.reg .ip + 2#16) ∧ t.fsz = s.fsz - 2#16 ∧
    SameRegsExcept s t [.ip, .sp, rd] ∧ SameControl s t ∧ SameMem s t

/-- R162 to R164, R201: a push or a pop whose word lies outside memory takes OutOfBounds and commits nothing
(decision D3). -/
def Obligations.StackAccessOutsideMemoryTakesFault : Prop :=
  ∀ s : State,
    (¬ WordInside s (s.reg .sp) → (∀ lit, exec (.pushLit lit) s = .next (takeFault .outOfBounds s)) ∧
      ∀ rs, exec (.pushReg rs) s = .next (takeFault .outOfBounds s)) ∧
    (¬ WordInside s (s.reg .sp + 2#16) → ∀ rd, exec (.pop rd) s = .next (takeFault .outOfBounds s))

/-- R166 (derived): a push followed immediately by a pop returns the value and restores SP and the counter; the word stays
in memory. -/
def Obligations.PushThenPopRoundTrip : Prop :=
  ∀ (s : State) (v : Word), WordInside s (s.reg .sp) →
    ∃ t u, push v s = .ok t ∧ pop t = .ok (v, u) ∧ u.regs = s.regs ∧ u.fsz = s.fsz ∧
      u.wordAt (s.reg .sp) = v

/-- R168: push p, push q, pop p, pop q swaps two registers, for every two registers other than IP and SP. -/
def Obligations.SwapThroughTheStack : Prop :=
  ∀ (s : State) (p q : Reg), p ≠ q → p ∉ [Reg.ip, .sp] → q ∉ [Reg.ip, .sp] →
    WordInside s (s.reg .sp) → WordInside s (s.reg .sp - 2#16) →
    ∃ t1 t2 t3 t4, exec (.pushReg p) s = .next t1 ∧ exec (.pushReg q) t1 = .next t2 ∧
      exec (.pop p) t2 = .next t3 ∧ exec (.pop q) t3 = .next t4 ∧
      t4.reg p = s.reg q ∧ t4.reg q = s.reg p ∧ t4.fsz = s.fsz ∧ t4.reg .ip = s.reg .ip + 8#16 ∧
      SameRegsExcept s t4 [.ip, p, q] ∧ SameControl s t4 ∧ SameMemExcept s t4 [s.reg .sp, s.reg .sp - 2#16]

/-- R167 (derived, D7): the ends of the stack: pushes at SP 0 and 1 wrap SP, a push that does not fit faults, and a pop from the
reset state faults or wraps by the memory size. -/
def Obligations.StackPointerWrapsAtTheEnds : Prop :=
  (∀ (s : State) (v w : Word), s.params.WellFormed → s.reg .sp = 0 →
    ∃ t, push v s = .ok t ∧ t.wordAt 0 = v ∧ t.reg .sp = 0xFFFE ∧
      (s.params.memBytes = 65536 → ∃ u, push w t = .ok u ∧ u.wordAt 0xFFFE = w) ∧
      (s.params.memBytes < 65536 → push w t = .error .outOfBounds)) ∧
  (∀ (s : State) (v : Word), 3 ≤ s.params.memBytes → s.reg .sp = 1 →
    ∃ t, push v s = .ok t ∧ t.byteAt 1 = highByte v ∧ t.byteAt 2 = lowByte v ∧ t.reg .sp = 0xFFFF) ∧
  (∀ (s : State) (v : Word), s.params.memBytes - 1 ≤ (s.reg .sp).toNat → push v s = .error .outOfBounds) ∧
  ∀ (p : Params) (m : Memory), p.WellFormed →
    (p.memBytes < 65536 → pop (State.resetWith p m) = .error .outOfBounds) ∧
    (p.memBytes = 65536 → ∃ u, pop (State.resetWith p m) = .ok ((State.resetWith p m).wordAt 0, u) ∧
      u.reg .sp = 0)

/-! ### Call and return (spec/45_call_return.md) -/

/-- R182, R181, R186: CAL_LIT completes when its ten words lie inside memory: IP at the target, SP and FP at the
frame base F, the counter zero, and the frame's words at their offsets from F (derived, R186). -/
def Obligations.CalLitResult : Prop :=
  ∀ (s : State) (addr : Word), (∀ a ∈ pushSlots (s.reg .sp) 10, WordInside s a) →
    ∃ t, exec (.calLit addr) s = .next t ∧ t.reg .ip = addr ∧ t.reg .sp = s.reg .sp - 20#16 ∧
      t.reg .fp = t.reg .sp ∧ t.fsz = 0 ∧
      t.wordAt (t.reg .fp + 2#16) = s.fsz + 20#16 ∧ t.wordAt (t.reg .fp + 4#16) = s.reg .ip + 3#16 ∧
      t.wordAt (t.reg .fp + 6#16) = s.reg .r8 ∧ t.wordAt (t.reg .fp + 8#16) = s.reg .r7 ∧
      t.wordAt (t.reg .fp + 10#16) = s.reg .r6 ∧ t.wordAt (t.reg .fp + 12#16) = s.reg .r5 ∧
      t.wordAt (t.reg .fp + 14#16) = s.reg .r4 ∧ t.wordAt (t.reg .fp + 16#16) = s.reg .r3 ∧
      t.wordAt (t.reg .fp + 18#16) = s.reg .r2 ∧ t.wordAt (t.reg .fp + 20#16) = s.reg .r1 ∧
      SameRegsExcept s t [.ip, .sp, .fp] ∧ SameControl s t ∧ SameMemExcept s t (pushSlots (s.reg .sp) 10)

/-- R183, R181, R186: CAL_REG the same, the target read before the pushes; IP as the target register reads as the
address of the next instruction. -/
def Obligations.CalRegResult : Prop :=
  ∀ (s : State) (rs : Reg), (∀ a ∈ pushSlots (s.reg .sp) 10, WordInside s a) →
    ∃ t, exec (.calReg rs) s = .next t ∧
      t.reg .ip = (if rs = .ip then s.reg .ip + 2#16 else s.reg rs) ∧ t.reg .sp = s.reg .sp - 20#16 ∧
      t.reg .fp = t.reg .sp ∧ t.fsz = 0 ∧
      t.wordAt (t.reg .fp + 2#16) = s.fsz + 20#16 ∧ t.wordAt (t.reg .fp + 4#16) = s.reg .ip + 2#16 ∧
      t.wordAt (t.reg .fp + 6#16) = s.reg .r8 ∧ t.wordAt (t.reg .fp + 8#16) = s.reg .r7 ∧
      t.wordAt (t.reg .fp + 10#16) = s.reg .r6 ∧ t.wordAt (t.reg .fp + 12#16) = s.reg .r5 ∧
      t.wordAt (t.reg .fp + 14#16) = s.reg .r4 ∧ t.wordAt (t.reg .fp + 16#16) = s.reg .r3 ∧
      t.wordAt (t.reg .fp + 18#16) = s.reg .r2 ∧ t.wordAt (t.reg .fp + 20#16) = s.reg .r1 ∧
      SameRegsExcept s t [.ip, .sp, .fp] ∧ SameControl s t ∧ SameMemExcept s t (pushSlots (s.reg .sp) 10)

/-- R182, R183: a call of which any of the ten pushes does not fit takes OutOfBounds; no word of the partial frame
is left (decisions D3, D10). -/
def Obligations.CallOutsideMemoryTakesFault : Prop :=
  ∀ s : State, (∃ a ∈ pushSlots (s.reg .sp) 10, ¬ WordInside s a) →
    (∀ addr, exec (.calLit addr) s = .next (takeFault .outOfBounds s)) ∧
    ∀ rs, exec (.calReg rs) s = .next (takeFault .outOfBounds s)

/-- R184, R185: RET completes when its `11 + n` pops lie inside memory: everything restored from the frame at FP,
the counter zero (the spec's decision D14), ACC and memory unchanged. -/
def Obligations.RetResult : Prop :=
  ∀ s : State, (∀ a ∈ popSlots (s.reg .fp) (11 + retCount s), WordInside s a) →
    ∃ t, exec .ret s = .next t ∧ t.reg .ip = s.wordAt (s.reg .fp + 4#16) ∧
      t.reg .r8 = s.wordAt (s.reg .fp + 6#16) ∧ t.reg .r7 = s.wordAt (s.reg .fp + 8#16) ∧
      t.reg .r6 = s.wordAt (s.reg .fp + 10#16) ∧ t.reg .r5 = s.wordAt (s.reg .fp + 12#16) ∧
      t.reg .r4 = s.wordAt (s.reg .fp + 14#16) ∧ t.reg .r3 = s.wordAt (s.reg .fp + 16#16) ∧
      t.reg .r2 = s.wordAt (s.reg .fp + 18#16) ∧ t.reg .r1 = s.wordAt (s.reg .fp + 20#16) ∧
      t.reg .sp = s.reg .fp + 22#16 + BitVec.ofNat 16 (2 * (s.wordAt (s.reg .fp + 22#16)).toNat) ∧
      t.reg .fp = s.reg .fp + s.wordAt (s.reg .fp + 2#16) ∧ t.reg .acc = s.reg .acc ∧
      t.fsz = 0 ∧ SameControl s t ∧ SameMem s t

/-- R184, R185: a RET of which any pop lies outside memory, the discarded ones among them, takes OutOfBounds and
commits nothing (decisions D3, D18). -/
def Obligations.RetOutsideMemoryTakesFault : Prop :=
  ∀ s : State, (∃ a ∈ popSlots (s.reg .fp) (11 + retCount s), ¬ WordInside s a) →
    exec .ret s = .next (takeFault .outOfBounds s)

/-- R188 (derived): a call, then any callee that leaves FP and the frame's eleven words as the call made them, then RET. Here
`s` is the state at the call, the argument count n the word just pushed at SP + 2. RET goes to the instruction
after the call, R1 to R8 are back, the count and the arguments are dropped, FP is SP + fsz at the call (R188
(d)), the counter is zero (the spec's decision D14, notes/assumptions/13.md), ACC is the callee's and memory keeps
its bytes. -/
def Obligations.CallThenReturnRestoresTheCaller : Prop :=
  ∀ (s t u : State) (i : Instr), (∃ addr, i = .calLit addr) ∨ (∃ r, i = .calReg r) →
    (∀ a ∈ pushSlots (s.reg .sp) 10, WordInside s a) → WordInside s (s.reg .sp + 2#16) →
    (∀ a ∈ popSlots (s.reg .sp + 2#16) (s.wordAt (s.reg .sp + 2#16)).toNat, WordInside s a) →
    exec i s = .next t → u.params = t.params → u.reg .fp = t.reg .fp →
    (∀ a ∈ popSlots (t.reg .fp) 11, u.wordAt a = t.wordAt a) →
    ∃ v, exec .ret u = .next v ∧ v.reg .ip = s.reg .ip + BitVec.ofNat 16 i.length ∧
      (∀ r ∈ [Reg.r1, .r2, .r3, .r4, .r5, .r6, .r7, .r8], v.reg r = s.reg r) ∧
      v.reg .sp = s.reg .sp + 2#16 + BitVec.ofNat 16 (2 * (s.wordAt (s.reg .sp + 2#16)).toNat) ∧
      v.reg .fp = s.reg .sp + s.fsz ∧ v.fsz = 0 ∧ v.reg .acc = u.reg .acc ∧ SameMem u v ∧ SameControl u v

/-! ### Rules over all instructions -/

/-- R151 (derived in part): IP changes other than by the advance of the fetches only by a taken JMP_NOT_EQ, a call, a return, or a
register write that selects IP. -/
def Obligations.IpLeavesSequenceOnlyByControlTransfer : Prop :=
  ∀ (i : Instr) (s t : State), s.fault = none → exec i s = .next t → t.fault = none →
    t.reg .ip ≠ s.reg .ip + BitVec.ofNat 16 i.length →
    selectedDest i = some .ip ∨ (∃ lit addr, i = .jmpNotEq lit addr ∧ lit ≠ s.reg .acc) ∨
      (∃ addr, i = .calLit addr) ∨ (∃ r, i = .calReg r) ∨ i = .ret

/-- R58 (derived): only MOV_REG_MEM, the pushes and the calls write memory. -/
def Obligations.OnlyStoresPushesAndCallsWriteMemory : Prop :=
  ∀ (i : Instr) (s t : State), exec i s = .next t → t.mem ≠ s.mem →
    (∃ r addr, i = .movRegMem r addr) ∨ (∃ lit, i = .pushLit lit) ∨ (∃ r, i = .pushReg r) ∨
      (∃ addr, i = .calLit addr) ∨ (∃ r, i = .calReg r)

/-- R22, R185 (derived): ACC is written only by ADD_REG_REG or through a selector that names it, so it survives calls and
returns. -/
def Obligations.AccWrittenOnlyByAddOrSelector : Prop :=
  ∀ (i : Instr) (s t : State), exec i s = .next t → t.reg .acc ≠ s.reg .acc →
    (∃ i1 i2, i = .addRegReg i1 i2) ∨ selectedDest i = some .acc

/-- R28: what each instruction does to the frame-size counter when it does not fault (its width is the spec's decision
D8, zero after RET D14). -/
def Obligations.FrameCounterChangesOnlyByStackAndCalls : Prop :=
  ∀ (i : Instr) (s t : State), s.fault = none → exec i s = .next t → t.fault = none →
    t.fsz = match i with
      | .pushLit _ => s.fsz + 2#16
      | .pushReg _ => s.fsz + 2#16
      | .pop _ => s.fsz - 2#16
      | .calLit _ => 0
      | .calReg _ => 0
      | .ret => 0
      | _ => s.fsz

/-- R29: a program observes the counter only through a call. Two machines that differ in the counter alone still
differ in the counter alone after any step that executes no call; after a call they differ in the frame-size
word at FP + 2 alone. -/
def Obligations.FrameCounterHiddenExceptThroughCalls : Prop :=
  ∀ (s t : State) (f : Word), step s = .next t →
    ((∀ addr, fetchInstr s ≠ .ok (.instr (.calLit addr))) → (∀ r, fetchInstr s ≠ .ok (.instr (.calReg r))) →
      ∃ g, step (s.setFsz f) = .next (t.setFsz g)) ∧
    ((∃ addr, fetchInstr s = .ok (.instr (.calLit addr))) ∨ (∃ r, fetchInstr s = .ok (.instr (.calReg r))) →
      t.fault = none → ∃ t', step (s.setFsz f) = .next t' ∧ t'.regs = t.regs ∧ t'.fsz = t.fsz ∧
        SameControl t t' ∧ SameMemExcept t t' [t.reg .fp + 2#16])

/-- R6, R20: the parameters never change after construction: no step changes them, and no reset request does, in any
state, a faulted one among them. -/
def Obligations.ParametersNeverChange : Prop :=
  ∀ s : State, (∀ t, step s = .next t → t.params = s.params) ∧ (resetRequest s).params = s.params

/-- R65 (derived): the bytes a MOV_REG_MEM stored are what the very next fetches at that address read. -/
def Obligations.StoreIsSeenByLaterFetches : Prop :=
  ∀ (s t u : State) (r : Reg) (addr : Word), s.params.WellFormed → s.fault = none →
    exec (.movRegMem r addr) s = .next t → t.fault = none →
    u.mem = t.mem → u.params = t.params → u.reg .ip = addr →
    ∃ v w, fetch8 u = .ok (highByte (if r = .ip then s.reg .ip + 4#16 else s.reg r), v) ∧
      fetch8 v = .ok (lowByte (if r = .ip then s.reg .ip + 4#16 else s.reg r), w) ∧
      fetch16 u = .ok (if r = .ip then s.reg .ip + 4#16 else s.reg r, w)

/-! ### The invariant -/

/-- Every step from every state that satisfies the invariant keeps it: legal parameters, memory in canonical form
and inside its bounds, the latch never at the reserved cause (R6, R32, R203). -/
def Obligations.StepKeepsTheInvariant : Prop :=
  ∀ s t : State, StateInv s → step s = .next t → StateInv t

/-- The invariant holds at reset, under the default and under all legal parameters, and after a reset request. -/
def Obligations.ResetSatisfiesTheInvariant : Prop :=
  StateInv State.reset ∧ (∀ p : Params, p.WellFormed → StateInv (State.resetWith p [])) ∧
    ∀ s : State, StateInv s → StateInv (resetRequest s)

/-! ### The host's observation (spec/70_reset_and_hazards.md) -/

/-- R249 to R251: the peek interface answers each of the twelve registers by name, UnknownRegister for any other
name, and the big-endian word at an address or OutOfBounds (the latter the spec's decision D20). -/
def Obligations.PeekReadsRegistersAndMemory : Prop :=
  ∀ s : State, (∀ r : Reg, peekRegister s (Reg.name r) = .ok (s.reg r)) ∧
    (∀ n : String, n ∉ ["IP", "ACC", "R1", "R2", "R3", "R4", "R5", "R6", "R7", "R8", "SP", "FP"] →
      peekRegister s n = .error .unknownRegister) ∧
    ∀ a : Word, (a.toNat + 2 ≤ s.params.memBytes →
        peekMemory s a = .ok (bigEndian (s.byteAt a.toNat) (s.byteAt (a.toNat + 1)))) ∧
      (s.params.memBytes < a.toNat + 2 → peekMemory s a = .error .outOfBounds)
end

