-- ==== Sys2Proof/Laws/State.lean ====
section
/-! SUPPORT. One lemma per field per update of the state, and the register laws, so that no later proof
unfolds an update. -/

namespace Sys2Proof.Machine

@[simp] theorem RegFile.get_set_self (f : RegFile) (r : Reg) (v : Word) : (f.set r v).get r = v := by
  cases r <;> rfl

theorem RegFile.get_set_of_ne (f : RegFile) {r q : Reg} (v : Word) (h : q ≠ r) :
    (f.set r v).get q = f.get q := by
  cases r <;> cases q <;> first | rfl | exact absurd rfl h

/-! ### setReg -/

@[simp] theorem State.setReg_params (s : State) (r : Reg) (v : Word) : (s.setReg r v).params = s.params := rfl
@[simp] theorem State.setReg_fsz (s : State) (r : Reg) (v : Word) : (s.setReg r v).fsz = s.fsz := rfl
@[simp] theorem State.setReg_fault (s : State) (r : Reg) (v : Word) : (s.setReg r v).fault = s.fault := rfl
@[simp] theorem State.setReg_mem (s : State) (r : Reg) (v : Word) : (s.setReg r v).mem = s.mem := rfl
@[simp] theorem State.setReg_byteAt (s : State) (r : Reg) (v : Word) : (s.setReg r v).byteAt = s.byteAt := rfl
@[simp] theorem State.setReg_wordAt (s : State) (r : Reg) (v : Word) : (s.setReg r v).wordAt = s.wordAt := rfl

@[simp] theorem State.reg_setReg_self (s : State) (r : Reg) (v : Word) : (s.setReg r v).reg r = v :=
  RegFile.get_set_self s.regs r v

@[simp] theorem State.reg_setReg_of_ne (s : State) {r q : Reg} (v : Word) (h : q ≠ r) :
    (s.setReg r v).reg q = s.reg q :=
  RegFile.get_set_of_ne s.regs v h

theorem State.reg_setReg (s : State) (r q : Reg) (v : Word) :
    (s.setReg r v).reg q = if q = r then v else s.reg q := by
  split
  · next h => rw [h, State.reg_setReg_self]
  · next h => exact State.reg_setReg_of_ne s v h

/-! ### setFsz -/

@[simp] theorem State.setFsz_params (s : State) (v : Word) : (s.setFsz v).params = s.params := rfl
@[simp] theorem State.setFsz_fsz (s : State) (v : Word) : (s.setFsz v).fsz = v := rfl
@[simp] theorem State.setFsz_fault (s : State) (v : Word) : (s.setFsz v).fault = s.fault := rfl
@[simp] theorem State.setFsz_mem (s : State) (v : Word) : (s.setFsz v).mem = s.mem := rfl
@[simp] theorem State.setFsz_reg (s : State) (v : Word) : (s.setFsz v).reg = s.reg := rfl
@[simp] theorem State.setFsz_byteAt (s : State) (v : Word) : (s.setFsz v).byteAt = s.byteAt := rfl
@[simp] theorem State.setFsz_wordAt (s : State) (v : Word) : (s.setFsz v).wordAt = s.wordAt := rfl

/-! ### setMem -/

@[simp] theorem State.setMem_params (s : State) (m : Memory) : (s.setMem m).params = s.params := rfl
@[simp] theorem State.setMem_fsz (s : State) (m : Memory) : (s.setMem m).fsz = s.fsz := rfl
@[simp] theorem State.setMem_fault (s : State) (m : Memory) : (s.setMem m).fault = s.fault := rfl
@[simp] theorem State.setMem_mem (s : State) (m : Memory) : (s.setMem m).mem = m := rfl
@[simp] theorem State.setMem_reg (s : State) (m : Memory) : (s.setMem m).reg = s.reg := rfl

/-! ### takeFault -/

@[simp] theorem takeFault_params (e : Fault) (s : State) : (takeFault e s).params = s.params := rfl
@[simp] theorem takeFault_fsz (e : Fault) (s : State) : (takeFault e s).fsz = s.fsz := rfl
@[simp] theorem takeFault_fault (e : Fault) (s : State) : (takeFault e s).fault = some e := rfl
@[simp] theorem takeFault_mem (e : Fault) (s : State) : (takeFault e s).mem = s.mem := rfl
@[simp] theorem takeFault_reg (e : Fault) (s : State) : (takeFault e s).reg = s.reg := rfl

/-! ### afterFetch -/

@[simp] theorem afterFetch_params (m : Mnemonic) (s : State) : (afterFetch m s).params = s.params := rfl
@[simp] theorem afterFetch_fsz (m : Mnemonic) (s : State) : (afterFetch m s).fsz = s.fsz := rfl
@[simp] theorem afterFetch_fault (m : Mnemonic) (s : State) : (afterFetch m s).fault = s.fault := rfl
@[simp] theorem afterFetch_mem (m : Mnemonic) (s : State) : (afterFetch m s).mem = s.mem := rfl
@[simp] theorem afterFetch_byteAt (m : Mnemonic) (s : State) : (afterFetch m s).byteAt = s.byteAt := rfl
@[simp] theorem afterFetch_wordAt (m : Mnemonic) (s : State) : (afterFetch m s).wordAt = s.wordAt := rfl

@[simp] theorem afterFetch_ip (m : Mnemonic) (s : State) :
    (afterFetch m s).reg .ip = s.reg .ip + BitVec.ofNat 16 m.length :=
  State.reg_setReg_self s .ip _

@[simp] theorem afterFetch_reg (m : Mnemonic) (s : State) {r : Reg} (h : r ≠ .ip) :
    (afterFetch m s).reg r = s.reg r :=
  State.reg_setReg_of_ne s _ h

/-! ### The two ends of a step -/

theorem commit_ok (s t : State) : commit s (.ok t) = .next t := rfl
theorem commit_error (s : State) (e : Fault) : commit s (.error e) = .next (takeFault e s) := rfl

/-- Every end of a step is a next state. -/
theorem commit_next (s : State) (c : Except Fault State) : ∃ t, commit s c = .next t := by
  cases c with
  | ok t => exact ⟨t, rfl⟩
  | error e => exact ⟨_, rfl⟩

/-- What a step that began at `s` ends in: its own state, or the fault taken from `s`. -/
theorem commit_cases {s t : State} {c : Except Fault State} (h : commit s c = .next t) :
    c = .ok t ∨ ∃ e, c = .error e ∧ t = takeFault e s := by
  cases c with
  | ok u => cases h; exact .inl rfl
  | error e => cases h; exact .inr ⟨e, rfl, rfl⟩

end Sys2Proof.Machine
end

