-- ==== Sys2Proof/Laws/Memory.lean ====
section
/-! SUPPORT. The laws of memory as data: a read after a write, every other address left alone, and the
canonical form kept. None of the read laws assumes the canonical form. -/

namespace Sys2Proof.Machine

theorem Memory.read_erase_self (m : Memory) (a : Nat) : (m.erase a).read a = Memory.unwritten := by
  induction m with
  | nil => rfl
  | cons c m ih =>
    obtain ⟨k, v⟩ := c
    by_cases h : k = a <;> simp [Memory.erase, Memory.read, h, ih]

theorem Memory.read_erase_of_ne (m : Memory) {a b : Nat} (h : b ≠ a) : (m.erase a).read b = m.read b := by
  induction m with
  | nil => rfl
  | cons c m ih =>
    obtain ⟨k, v⟩ := c
    by_cases hk : k = a
    · have : ¬ k = b := fun e => h (e ▸ hk)
      simp only [Memory.erase, Memory.read, if_pos hk, if_neg this, ih]
    · simp only [Memory.erase, Memory.read, if_neg hk, ih]

theorem Memory.not_mem_erase (m : Memory) (a : Nat) : ∀ c ∈ m.erase a, c.1 ≠ a := by
  induction m with
  | nil => simp [Memory.erase]
  | cons c m ih =>
    obtain ⟨k, v⟩ := c
    by_cases h : k = a
    · simpa [Memory.erase, h] using ih
    · simpa [Memory.erase, h] using ih

theorem Memory.mem_of_mem_erase {m : Memory} {a : Nat} {c : Host.Cell} (h : c ∈ m.erase a) : c ∈ m := by
  induction m with
  | nil => simp [Memory.erase] at h
  | cons d m ih =>
    obtain ⟨k, v⟩ := d
    by_cases hk : k = a
    · simp only [Memory.erase, if_pos hk] at h
      exact List.mem_cons_of_mem _ (ih h)
    · simp only [Memory.erase, if_neg hk, List.mem_cons] at h
      rcases h with h | h
      · exact h ▸ List.mem_cons_self
      · exact List.mem_cons_of_mem _ (ih h)

theorem Memory.read_place_self (m : Memory) (a : Nat) (v : Byte) (h : ∀ c ∈ m, c.1 ≠ a) :
    (m.place a v).read a = v := by
  induction m with
  | nil => simp [Memory.place, Memory.read]
  | cons c m ih =>
    obtain ⟨k, w⟩ := c
    have hk : ¬ k = a := h (k, w) List.mem_cons_self
    by_cases hlt : a < k
    · simp [Memory.place, Memory.read, hlt]
    · simp [Memory.place, Memory.read, hlt, hk, ih fun c hc => h c (List.mem_cons_of_mem _ hc)]

theorem Memory.read_place_of_ne (m : Memory) {a b : Nat} (v : Byte) (h : b ≠ a) :
    (m.place a v).read b = m.read b := by
  induction m with
  | nil => simp [Memory.place, Memory.read, h.symm]
  | cons c m ih =>
    obtain ⟨k, w⟩ := c
    by_cases hlt : a < k
    · simp [Memory.place, Memory.read, hlt, h.symm]
    · simp [Memory.place, Memory.read, hlt, ih]

theorem Memory.mem_place {m : Memory} {a : Nat} {v : Byte} {c : Host.Cell} (h : c ∈ m.place a v) :
    c = (a, v) ∨ c ∈ m := by
  induction m with
  | nil => simpa [Memory.place] using h
  | cons d m ih =>
    obtain ⟨k, w⟩ := d
    by_cases hlt : a < k
    · simpa [Memory.place, hlt] using h
    · simp only [Memory.place, if_neg hlt, List.mem_cons] at h ⊢
      rcases h with h | h
      · exact .inr (.inl h)
      · rcases ih h with h | h
        · exact .inl h
        · exact .inr (.inr h)

@[simp] theorem Memory.read_write_self (m : Memory) (a : Nat) (v : Byte) : (m.write a v).read a = v := by
  unfold Memory.write
  split
  · next h => rw [h, Memory.read_erase_self]
  · exact Memory.read_place_self _ a v (Memory.not_mem_erase m a)

theorem Memory.read_write_of_ne (m : Memory) {a b : Nat} (v : Byte) (h : b ≠ a) :
    (m.write a v).read b = m.read b := by
  unfold Memory.write
  split
  · exact Memory.read_erase_of_ne m h
  · rw [Memory.read_place_of_ne _ v h, Memory.read_erase_of_ne m h]

/-! ### The canonical form -/

theorem Memory.wf_nil : Memory.wf [] := ⟨List.Pairwise.nil, fun _ h => absurd h List.not_mem_nil⟩

theorem Memory.wf_cons {k : Nat} {v : Byte} {m : Memory} :
    Memory.wf ((k, v) :: m) ↔ (∀ c ∈ m, k < c.1) ∧ v ≠ Memory.unwritten ∧ m.wf := by
  simp only [Memory.wf, List.map_cons, List.pairwise_cons, List.mem_map, List.mem_cons, forall_eq_or_imp]
  constructor
  · rintro ⟨⟨h1, h2⟩, h3, h4⟩
    exact ⟨fun c hc => h1 _ ⟨c, hc, rfl⟩, h3, h2, h4⟩
  · rintro ⟨h1, h3, h2, h4⟩
    exact ⟨⟨fun a ⟨c, hc, e⟩ => e ▸ h1 c hc, h2⟩, h3, h4⟩

theorem Memory.wf_erase {m : Memory} (a : Nat) (h : m.wf) : (m.erase a).wf := by
  induction m with
  | nil => exact Memory.wf_nil
  | cons c m ih =>
    obtain ⟨k, v⟩ := c
    obtain ⟨h1, h2, h3⟩ := Memory.wf_cons.mp h
    by_cases hk : k = a
    · simpa only [Memory.erase, if_pos hk] using ih h3
    · simp only [Memory.erase, if_neg hk]
      exact Memory.wf_cons.mpr ⟨fun c hc => h1 c (Memory.mem_of_mem_erase hc), h2, ih h3⟩

theorem Memory.wf_place {m : Memory} {a : Nat} {v : Byte} (h : m.wf) (hv : v ≠ Memory.unwritten)
    (ha : ∀ c ∈ m, c.1 ≠ a) : (m.place a v).wf := by
  induction m with
  | nil => exact Memory.wf_cons.mpr ⟨by simp, hv, Memory.wf_nil⟩
  | cons c m ih =>
    obtain ⟨k, w⟩ := c
    obtain ⟨h1, h2, h3⟩ := Memory.wf_cons.mp h
    have hk : k ≠ a := ha (k, w) List.mem_cons_self
    by_cases hlt : a < k
    · simp only [Memory.place, if_pos hlt]
      refine Memory.wf_cons.mpr ⟨fun c hc => ?_, hv, h⟩
      rcases List.mem_cons.mp hc with e | hc
      · exact e ▸ hlt
      · exact Nat.lt_trans hlt (h1 c hc)
    · simp only [Memory.place, if_neg hlt]
      refine Memory.wf_cons.mpr ⟨fun c hc => ?_, h2, ih h3 fun c hc => ha c (List.mem_cons_of_mem _ hc)⟩
      rcases Memory.mem_place hc with e | hc
      · subst e; show k < a; omega
      · exact h1 c hc

theorem Memory.wf_write {m : Memory} (a : Nat) (v : Byte) (h : m.wf) : (m.write a v).wf := by
  unfold Memory.write
  split
  · exact Memory.wf_erase a h
  · next hv => exact Memory.wf_place (Memory.wf_erase a h) hv (Memory.not_mem_erase m a)

theorem Memory.within_write {n : Nat} {m : Memory} {a : Nat} (v : Byte) (h : m.within n) (ha : a < n) :
    (m.write a v).within n := by
  intro c hc
  unfold Memory.write at hc
  split at hc
  · exact h c (Memory.mem_of_mem_erase hc)
  · rcases Memory.mem_place hc with e | hc
    · subst e; exact ha
    · exact h c (Memory.mem_of_mem_erase hc)

/-! ### Two memories in canonical form that read alike are one list -/

theorem Memory.read_eq_unwritten {m : Memory} {a : Nat} (h : ∀ c ∈ m, c.1 ≠ a) : m.read a = Memory.unwritten := by
  induction m with
  | nil => rfl
  | cons c m ih =>
    obtain ⟨k, v⟩ := c
    have hk : ¬ k = a := h (k, v) List.mem_cons_self
    simp [Memory.read, hk, ih fun c hc => h c (List.mem_cons_of_mem _ hc)]

/-- Equal memories are equal data. -/
theorem Memory.eq_of_read_eq {m n : Memory} (hm : m.wf) (hn : n.wf) (h : ∀ a, m.read a = n.read a) : m = n := by
  induction m generalizing n with
  | nil =>
    cases n with
    | nil => rfl
    | cons c n =>
      obtain ⟨k, v⟩ := c
      have := h k
      simp [Memory.read] at this
      exact absurd this.symm (Memory.wf_cons.mp hn).2.1
  | cons c m ih =>
    obtain ⟨k, v⟩ := c
    obtain ⟨h1, h2, h3⟩ := Memory.wf_cons.mp hm
    cases n with
    | nil =>
      have := h k
      simp [Memory.read] at this
      exact absurd this h2
    | cons d n =>
      obtain ⟨j, w⟩ := d
      obtain ⟨g1, g2, g3⟩ := Memory.wf_cons.mp hn
      have hkj : k = j := by
        rcases Nat.lt_trichotomy k j with lt | e | gt
        · have hk := h k
          rw [Memory.read_eq_unwritten (m := (j, w) :: n) (a := k)] at hk
          · simp [Memory.read] at hk
            exact absurd hk h2
          · intro c hc
            rcases List.mem_cons.mp hc with e | hc
            · subst e; show j ≠ k; omega
            · have := g1 c hc; omega
        · exact e
        · have hj := h j
          rw [Memory.read_eq_unwritten (m := (k, v) :: m) (a := j)] at hj
          · simp [Memory.read] at hj
            exact absurd hj.symm g2
          · intro c hc
            rcases List.mem_cons.mp hc with e | hc
            · subst e; show k ≠ j; omega
            · have := h1 c hc; omega
      subst hkj
      have hvw : v = w := by simpa [Memory.read] using h k
      subst hvw
      have : m = n := ih h3 g3 fun a => by
        by_cases ha : k = a
        · subst ha
          rw [Memory.read_eq_unwritten fun c hc => Nat.ne_of_gt (h1 c hc),
            Memory.read_eq_unwritten fun c hc => Nat.ne_of_gt (g1 c hc)]
        · simpa [Memory.read, ha] using h a
      rw [this]

end Sys2Proof.Machine
end

