-- ==== Sys2Proof/Laws/Ops.lean ====
section
/-! SUPPORT. One lemma per shared operation that says everything it can do: what it answers and when. Provers
cite these and do not unfold the operation. -/

namespace Sys2Proof.Machine

/-! ### Byte order -/

theorem bigEndian_toNat (h l : Byte) : (bigEndian h l).toNat = h.toNat * 256 + l.toNat := by
  show (h ++ l).toNat = _
  rw [BitVec.toNat_append, ← Nat.shiftLeft_add_eq_or_of_lt l.isLt, Nat.shiftLeft_eq]

theorem highByte_toNat (w : Word) : (highByte w).toNat = w.toNat / 256 := by
  have := w.isLt
  simp only [highByte, BitVec.extractLsb'_toNat, Nat.shiftRight_eq_div_pow]
  omega

theorem lowByte_toNat (w : Word) : (lowByte w).toNat = w.toNat % 256 := by
  simp [lowByte, BitVec.extractLsb'_toNat]

@[simp] theorem highByte_bigEndian (h l : Byte) : highByte (bigEndian h l) = h := by
  apply BitVec.eq_of_toNat_eq
  have := l.isLt
  rw [highByte_toNat, bigEndian_toNat]
  omega

@[simp] theorem lowByte_bigEndian (h l : Byte) : lowByte (bigEndian h l) = l := by
  apply BitVec.eq_of_toNat_eq
  have := l.isLt
  rw [lowByte_toNat, bigEndian_toNat]
  omega

@[simp] theorem bigEndian_high_low (w : Word) : bigEndian (highByte w) (lowByte w) = w := by
  apply BitVec.eq_of_toNat_eq
  rw [bigEndian_toNat, highByte_toNat, lowByte_toNat]
  omega

/-! ### Memory access -/

theorem memRead8_eq (s : State) (a : Word) :
    memRead8 s a = if a.toNat + 1 ≤ s.params.memBytes then .ok (s.byteAt a.toNat) else .error .outOfBounds := by
  unfold memRead8
  split <;> split <;> first | rfl | omega

theorem memRead16_inside {s : State} {a : Word} (h : WordInside s a) : memRead16 s a = .ok (s.wordAt a) := by
  unfold WordInside at h
  exact if_neg (by omega)

theorem memRead16_outside {s : State} {a : Word} (h : ¬ WordInside s a) :
    memRead16 s a = .error .outOfBounds := by
  unfold WordInside at h
  exact if_pos (by omega)

theorem memWrite16_outside {s : State} {a v : Word} (h : ¬ WordInside s a) :
    memWrite16 s a v = .error .outOfBounds := by
  unfold WordInside at h
  exact if_pos (by omega)

/-- A word write inside memory answers a state that differs in the two bytes of the word only, and keeps the
canonical form. -/
theorem memWrite16_inside {s : State} {a v : Word} (h : WordInside s a) :
    ∃ m, memWrite16 s a v = .ok (s.setMem m) ∧ m.read a.toNat = highByte v ∧ m.read (a.toNat + 1) = lowByte v ∧
      (∀ b, b ≠ a.toNat → b ≠ a.toNat + 1 → m.read b = s.byteAt b) ∧
      (s.mem.wf → m.wf) ∧ (s.mem.within s.params.memBytes → m.within s.params.memBytes) := by
  unfold WordInside at h
  refine ⟨_, if_neg (by omega), ?_, Memory.read_write_self _ _ _, fun b h1 h2 => ?_, fun hw => ?_, fun hw => ?_⟩
  · rw [Memory.read_write_of_ne _ _ (by omega), Memory.read_write_self]
  · rw [Memory.read_write_of_ne _ _ h2, Memory.read_write_of_ne _ _ h1]; rfl
  · exact Memory.wf_write _ _ (Memory.wf_write _ _ hw)
  · exact Memory.within_write _ (Memory.within_write _ hw (by omega)) (by omega)

/-- A word keeps its value where both of its bytes do. -/
theorem State.wordAt_congr {s t : State} {w : Word} (h0 : t.byteAt w.toNat = s.byteAt w.toNat)
    (h1 : t.byteAt (w.toNat + 1) = s.byteAt (w.toNat + 1)) : t.wordAt w = s.wordAt w := by
  simp only [State.wordAt, h0, h1]

/-! ### The stack primitives -/

theorem push_outside {s : State} (v : Word) (h : ¬ WordInside s (s.reg .sp)) :
    push v s = .error .outOfBounds := by
  simp [push, memWrite16_outside h, bind, Except.bind]

/-- A push whose word fits: the word at the old SP, SP down by 2, the counter up by 2, nothing else. -/
theorem push_inside {s : State} (v : Word) (h : WordInside s (s.reg .sp)) :
    ∃ t, push v s = .ok t ∧ t.wordAt (s.reg .sp) = v ∧ t.reg .sp = s.reg .sp - 2#16 ∧ t.fsz = s.fsz + 2#16 ∧
      SameRegsExcept s t [.sp] ∧ SameControl s t ∧ SameMemExcept s t [s.reg .sp] ∧
      (s.mem.wf → t.mem.wf) ∧ (s.mem.within s.params.memBytes → t.mem.within t.params.memBytes) := by
  obtain ⟨m, e, h0, h1, h2, h3, h4⟩ := memWrite16_inside (v := v) h
  refine ⟨((s.setMem m).setReg .sp (s.reg .sp - 2#16)).setFsz (s.fsz + 2#16), ?_, ?_, ?_, rfl, ?_, ⟨rfl, rfl⟩, ?_, h3, h4⟩
  · simp [push, e, bind, Except.bind, pure, Except.pure]
  · show bigEndian (m.read _) (m.read _) = v
    rw [h0, h1, bigEndian_high_low]
  · simp
  · intro r hr
    have hr : r ≠ .sp := by simpa using hr
    simp [hr]
  · intro a ha
    have := ha _ List.mem_cons_self
    exact h2 a this.1 this.2

theorem pop_outside {s : State} (h : ¬ WordInside s (s.reg .sp + 2#16)) : pop s = .error .outOfBounds := by
  have : memRead16 ((s.setReg .sp (s.reg .sp + 2#16)).setFsz (s.fsz - 2#16)) (s.reg .sp + 2#16) = .error .outOfBounds :=
    memRead16_outside h
  simp [pop, this, bind, Except.bind]

/-- A pop whose word fits: the word at the new SP, SP up by 2, the counter down by 2, nothing else. -/
theorem pop_inside {s : State} (h : WordInside s (s.reg .sp + 2#16)) :
    pop s = .ok (s.wordAt (s.reg .sp + 2#16), (s.setReg .sp (s.reg .sp + 2#16)).setFsz (s.fsz - 2#16)) := by
  have : memRead16 ((s.setReg .sp (s.reg .sp + 2#16)).setFsz (s.fsz - 2#16)) (s.reg .sp + 2#16)
      = .ok (s.wordAt (s.reg .sp + 2#16)) := memRead16_inside h
  simp [pop, this, bind, Except.bind, pure, Except.pure]

/-! ### Runs of pushes and pops -/

theorem slotStep (n : Nat) : BitVec.ofNat 16 (2 * (n + 1)) = 2#16 + BitVec.ofNat 16 (2 * n) := by
  apply BitVec.eq_of_toNat_eq
  simp only [BitVec.toNat_add, BitVec.toNat_ofNat]
  omega

theorem pushSlots_succ (sp : Word) (n : Nat) : pushSlots sp (n + 1) = sp :: pushSlots (sp - 2#16) n := by
  simp only [pushSlots, List.range_succ_eq_map, List.map_cons, List.map_map]
  congr 1
  · simp
  · refine List.map_congr_left fun k _ => ?_
    simp only [Function.comp]
    apply BitVec.eq_of_toNat_eq
    simp only [BitVec.toNat_sub, BitVec.toNat_ofNat]
    omega

theorem popSlots_succ (sp : Word) (n : Nat) : popSlots sp (n + 1) = (sp + 2#16) :: popSlots (sp + 2#16) n := by
  simp only [popSlots, List.range_succ_eq_map, List.map_cons, List.map_map]
  congr 1
  refine List.map_congr_left fun k _ => ?_
  simp only [Function.comp]
  apply BitVec.eq_of_toNat_eq
  simp only [BitVec.toNat_add, BitVec.toNat_ofNat]
  omega

/-- Every slot of fewer than 32768 pushes below a slot avoids that slot's two bytes. -/
theorem pushSlots_disjoint {sp a : Word} {n : Nat} (hn : n < 32768) (ha : a ∈ pushSlots (sp - 2#16) n) :
    sp.toNat ≠ a.toNat ∧ sp.toNat ≠ a.toNat + 1 ∧ sp.toNat + 1 ≠ a.toNat := by
  simp only [pushSlots, List.mem_map, List.mem_range] at ha
  obtain ⟨k, hk, rfl⟩ := ha
  have := sp.isLt
  simp only [BitVec.toNat_sub, BitVec.toNat_ofNat]
  omega

/-- A run of pushes of which one does not fit raises. -/
theorem pushAll_outside {vs : List Word} {s : State}
    (h : ∃ a ∈ pushSlots (s.reg .sp) vs.length, ¬ WordInside s a) : pushAll vs s = .error .outOfBounds := by
  induction vs generalizing s with
  | nil => obtain ⟨a, ha, _⟩ := h; simp [pushSlots] at ha
  | cons v vs ih =>
    by_cases hs : WordInside s (s.reg .sp)
    · obtain ⟨t, e, _, hsp, _, _, hc, _⟩ := push_inside v hs
      have : pushAll vs t = .error .outOfBounds := by
        apply ih
        obtain ⟨a, ha, hn⟩ := h
        rw [List.length_cons, pushSlots_succ, List.mem_cons] at ha
        rcases ha with rfl | ha
        · exact absurd hs hn
        · exact ⟨a, hsp ▸ ha, by simpa [WordInside, hc.1] using hn⟩
      simp [pushAll, e, this, bind, Except.bind]
    · simp [pushAll, push_outside v hs, bind, Except.bind]

/-- A run of pushes that all fit: each word in its slot, nothing else of memory changed. -/
theorem pushAll_inside {vs : List Word} {s : State} (hl : vs.length ≤ 32768)
    (h : ∀ a ∈ pushSlots (s.reg .sp) vs.length, WordInside s a) :
    ∃ t, pushAll vs s = .ok t ∧ t.reg .sp = s.reg .sp - BitVec.ofNat 16 (2 * vs.length) ∧
      t.fsz = s.fsz + BitVec.ofNat 16 (2 * vs.length) ∧ SameRegsExcept s t [.sp] ∧ SameControl s t ∧
      SameMemExcept s t (pushSlots (s.reg .sp) vs.length) ∧
      (pushSlots (s.reg .sp) vs.length).map t.wordAt = vs ∧
      (s.mem.wf → t.mem.wf) ∧ (s.mem.within s.params.memBytes → t.mem.within t.params.memBytes) := by
  induction vs generalizing s with
  | nil =>
    exact ⟨s, rfl, by simp, by simp, fun _ _ => rfl, ⟨rfl, rfl⟩, fun _ _ => rfl, by simp [pushSlots],
      id, id⟩
  | cons v vs ih =>
    rw [List.length_cons] at hl h
    rw [pushSlots_succ] at h
    have hs := h _ List.mem_cons_self
    obtain ⟨t, e, hw, hsp, hf, hr, hc, hm, hwf, hin⟩ := push_inside v hs
    obtain ⟨u, e', hsp', hf', hr', hc', hm', hw', hwf', hin'⟩ := ih (s := t) (by omega) fun a ha => by
      have := h a (List.mem_cons_of_mem _ (hsp ▸ ha))
      simpa [WordInside, hc.1] using this
    have two := slotStep vs.length
    refine ⟨u, by simp [pushAll, e, e', bind, Except.bind], ?_, ?_, fun r hn => ?_, ?_, fun a ha => ?_, ?_,
      hwf' ∘ hwf, hin' ∘ hin⟩
    · rw [hsp', hsp, List.length_cons, two]
      simp only [BitVec.sub_eq_add_neg, BitVec.neg_add, BitVec.add_assoc]
    · rw [hf', hf, List.length_cons, two, BitVec.add_assoc]
    · rw [hr' r hn, hr r hn]
    · exact ⟨hc'.1.trans hc.1, hc'.2.trans hc.2⟩
    · rw [List.length_cons, pushSlots_succ] at ha
      rw [hm' a fun w hwm => ha w (List.mem_cons_of_mem _ (hsp ▸ hwm)),
        hm a fun w hwm => ha w (by simp at hwm; simp [hwm])]
    · rw [List.length_cons, pushSlots_succ, List.map_cons]
      congr 1
      · rw [← hw]
        have dis : ∀ w ∈ pushSlots (t.reg .sp) vs.length, (s.reg .sp).toNat ≠ w.toNat ∧
            (s.reg .sp).toNat ≠ w.toNat + 1 ∧ (s.reg .sp).toNat + 1 ≠ w.toNat := fun w hwm =>
          pushSlots_disjoint (by omega) (hsp ▸ hwm)
        exact State.wordAt_congr (hm' _ fun w hwm => ⟨(dis w hwm).1, (dis w hwm).2.1⟩)
          (hm' _ fun w hwm => ⟨(dis w hwm).2.2, by have := (dis w hwm).1; omega⟩)
      · rw [← hsp]; exact hw'

/-- A run of pops into registers of which one does not fit raises. -/
theorem popIntoAll_outside {rs : List Reg} {s : State} (hsp : .sp ∉ rs)
    (h : ∃ a ∈ popSlots (s.reg .sp) rs.length, ¬ WordInside s a) : popIntoAll rs s = .error .outOfBounds := by
  induction rs generalizing s with
  | nil => obtain ⟨a, ha, _⟩ := h; simp [popSlots] at ha
  | cons r rs ih =>
    have hr : (Reg.sp : Reg) ≠ r := fun e => hsp (e ▸ List.mem_cons_self)
    by_cases hs : WordInside s (s.reg .sp + 2#16)
    · have := ih (s := ((s.setReg .sp (s.reg .sp + 2#16)).setFsz (s.fsz - 2#16)).setReg r (s.wordAt (s.reg .sp + 2#16)))
        (fun hm => hsp (List.mem_cons_of_mem _ hm)) (by
          obtain ⟨a, ha, hn⟩ := h
          rw [List.length_cons, popSlots_succ, List.mem_cons] at ha
          rcases ha with rfl | ha
          · exact absurd hs hn
          · exact ⟨a, by simpa [hr] using ha, hn⟩)
      simp [popIntoAll, popInto, pop_inside hs, this, bind, Except.bind, pure, Except.pure]
    · simp [popIntoAll, popInto, pop_outside hs, bind, Except.bind]

/-- A run of pops into distinct registers other than SP that all fit: each register its word, memory and
the other registers unchanged. -/
theorem popIntoAll_inside {rs : List Reg} {s : State} (hsp : .sp ∉ rs) (hd : rs.Nodup)
    (h : ∀ a ∈ popSlots (s.reg .sp) rs.length, WordInside s a) :
    ∃ t, popIntoAll rs s = .ok t ∧ t.reg .sp = s.reg .sp + BitVec.ofNat 16 (2 * rs.length) ∧
      t.mem = s.mem ∧ SameControl s t ∧ SameRegsExcept s t (.sp :: rs) ∧
      rs.map t.reg = (popSlots (s.reg .sp) rs.length).map s.wordAt := by
  induction rs generalizing s with
  | nil => exact ⟨s, rfl, by simp, rfl, ⟨rfl, rfl⟩, fun _ _ => rfl, by simp [popSlots]⟩
  | cons r rs ih =>
    have hr : (Reg.sp : Reg) ≠ r := fun e => hsp (e ▸ List.mem_cons_self)
    rw [List.length_cons, popSlots_succ] at h
    have hs := h _ List.mem_cons_self
    obtain ⟨hd1, hd2⟩ := List.nodup_cons.mp hd
    obtain ⟨t, e, h1, h2, h3, h4, h5⟩ := ih
      (s := ((s.setReg .sp (s.reg .sp + 2#16)).setFsz (s.fsz - 2#16)).setReg r (s.wordAt (s.reg .sp + 2#16)))
      (fun hm => hsp (List.mem_cons_of_mem _ hm)) hd2 (fun a ha => by
        have := h a (List.mem_cons_of_mem _ (by simpa [hr] using ha))
        exact this)
    have two := slotStep rs.length
    refine ⟨t, by simp [popIntoAll, popInto, pop_inside hs, e, bind, Except.bind, pure, Except.pure],
      ?_, h2, h3, fun q hq => ?_, ?_⟩
    · rw [h1, List.length_cons, two, ← BitVec.add_assoc]; simp [hr]
    · simp only [List.mem_cons, not_or] at hq
      rw [h4 q (by simp [hq])]
      simp [hq]
    · rw [List.length_cons, popSlots_succ, List.map_cons, List.map_cons]
      congr 1
      · rw [h4 r (by simp [hd1, hr.symm])]; simp
      · rw [h5]; simp [hr]

/-- Discarded pops of which one does not fit raise. -/
theorem popDiscard_outside {n : Nat} {s : State} (h : ∃ a ∈ popSlots (s.reg .sp) n, ¬ WordInside s a) :
    popDiscard n s = .error .outOfBounds := by
  induction n generalizing s with
  | zero => obtain ⟨a, ha, _⟩ := h; simp [popSlots] at ha
  | succ n ih =>
    by_cases hs : WordInside s (s.reg .sp + 2#16)
    · have := ih (s := (s.setReg .sp (s.reg .sp + 2#16)).setFsz (s.fsz - 2#16)) (by
        obtain ⟨a, ha, hn⟩ := h
        rw [popSlots_succ, List.mem_cons] at ha
        rcases ha with rfl | ha
        · exact absurd hs hn
        · exact ⟨a, by simpa using ha, hn⟩)
      simp [popDiscard, pop_inside hs, this, bind, Except.bind]
    · simp [popDiscard, pop_outside hs, bind, Except.bind]

/-- Discarded pops that all fit move SP and the counter and nothing else. -/
theorem popDiscard_inside {n : Nat} {s : State} (h : ∀ a ∈ popSlots (s.reg .sp) n, WordInside s a) :
    ∃ t, popDiscard n s = .ok t ∧ t.reg .sp = s.reg .sp + BitVec.ofNat 16 (2 * n) ∧
      t.mem = s.mem ∧ SameControl s t ∧ SameRegsExcept s t [.sp] := by
  induction n generalizing s with
  | zero => exact ⟨s, rfl, by simp, rfl, ⟨rfl, rfl⟩, fun _ _ => rfl⟩
  | succ n ih =>
    rw [popSlots_succ] at h
    have hs := h _ List.mem_cons_self
    obtain ⟨t, e, h1, h2, h3, h4⟩ := ih (s := (s.setReg .sp (s.reg .sp + 2#16)).setFsz (s.fsz - 2#16)) fun a ha => by
      have := h a (List.mem_cons_of_mem _ (by simpa using ha))
      exact this
    have two := slotStep n
    refine ⟨t, by simp [popDiscard, pop_inside hs, e, bind, Except.bind], ?_, h2, h3, fun q hq => ?_⟩
    · rw [h1, two, ← BitVec.add_assoc]; simp
    · rw [h4 q hq]
      have : q ≠ .sp := by simpa using hq
      simp [this]

end Sys2Proof.Machine
end

