-- ==== Sys2Proof/Laws/CallReturn.lean ====
section
/-! SUPPORT. Everything the state save of a call and the state restore of a return can do. -/

namespace Sys2Proof.Machine

theorem pushAll_append (vs ws : List Word) (s : State) :
    pushAll (vs ++ ws) s = (pushAll vs s).bind (pushAll ws) := by
  induction vs generalizing s with
  | nil => rfl
  | cons v vs ih =>
    simp only [List.cons_append, pushAll, bind]
    cases push v s with
    | error e => rfl
    | ok t => exact ih t

/-- The ten words a call pushes, R1 first, the frame-size word `(f0 + 20) mod 2^16` last (R181). -/
def frameWords (s : State) : List Word := savedRegs.map s.reg ++ [s.reg .ip, s.fsz + 20#16]

/-- The state save is a run of ten pushes, and then `FP <- SP`, `fsz <- 0`. -/
theorem saveState_eq (s : State) :
    saveState s = (pushAll (frameWords s) s).map fun t => (t.setReg .fp (t.reg .sp)).setFsz 0 := by
  have split : frameWords s = (savedRegs.map s.reg ++ [s.reg .ip]) ++ [s.fsz + 20#16] := by
    simp [frameWords]
  rw [split, pushAll_append]
  by_cases h : ∀ a ∈ pushSlots (s.reg .sp) (savedRegs.map s.reg ++ [s.reg .ip]).length, WordInside s a
  · obtain ⟨t, e, _, hf, _⟩ := pushAll_inside (by simp [savedRegs]) h
    have hf : t.fsz + 2#16 = s.fsz + 20#16 := by
      rw [hf, show (savedRegs.map s.reg ++ [s.reg .ip]).length = 9 by simp [savedRegs], BitVec.add_assoc]
      rfl
    simp only [saveState, e, bind, Except.bind, hf, pushAll]
    cases push (s.fsz + 20#16) t <;> rfl
  · have e := pushAll_outside (vs := savedRegs.map s.reg ++ [s.reg .ip]) (s := s) (by simpa using h)
    simp only [saveState, e, bind, Except.bind, Except.map]

theorem frameWords_length (s : State) : (frameWords s).length = 10 := by simp [frameWords, savedRegs]

/-- A state save of which one word does not fit raises. -/
theorem saveState_outside {s : State} (h : ∃ a ∈ pushSlots (s.reg .sp) 10, ¬ WordInside s a) :
    saveState s = .error .outOfBounds := by
  rw [saveState_eq, pushAll_outside (by rwa [frameWords_length])]
  rfl

/-- A state save whose ten words fit: the frame in memory, FP = SP, the counter zero, nothing else. -/
theorem saveState_inside {s : State} (h : ∀ a ∈ pushSlots (s.reg .sp) 10, WordInside s a) :
    ∃ t, saveState s = .ok t ∧ t.reg .sp = s.reg .sp - 20#16 ∧ t.reg .fp = s.reg .sp - 20#16 ∧ t.fsz = 0 ∧
      SameRegsExcept s t [.sp, .fp] ∧ SameControl s t ∧ SameMemExcept s t (pushSlots (s.reg .sp) 10) ∧
      (pushSlots (s.reg .sp) 10).map t.wordAt = frameWords s ∧
      (s.mem.wf → t.mem.wf) ∧ (s.mem.within s.params.memBytes → t.mem.within t.params.memBytes) := by
  have hl := frameWords_length s
  obtain ⟨t, e, hsp, _, hr, hc, hm, hw, h1, h2⟩ :=
    pushAll_inside (vs := frameWords s) (s := s) (by rw [hl]; omega) (by rwa [hl])
  rw [hl] at hsp hm hw
  refine ⟨(t.setReg .fp (t.reg .sp)).setFsz 0, by rw [saveState_eq, e]; rfl, by simp [hsp], by simp [hsp], rfl,
    fun r hn => ?_, hc, hm, hw, h1, h2⟩
  simp only [List.mem_cons, List.not_mem_nil, or_false, not_or] at hn
  simp [hn.2, hr r (by simpa using hn.1)]

theorem popSlots_append (sp : Word) (m n : Nat) :
    popSlots sp (m + n) = popSlots sp m ++ popSlots (sp + BitVec.ofNat 16 (2 * m)) n := by
  induction m generalizing sp with
  | zero => simp [popSlots]
  | succ m ih =>
    rw [show m + 1 + n = (m + n) + 1 by omega, popSlots_succ, popSlots_succ, ih, List.cons_append,
      slotStep, BitVec.add_assoc]

/-- The registers a return pops after the frame-size word: IP, then R8 to R1 (R184). -/
def restoredRegs : List Reg := .ip :: savedRegs.reverse

/-- A state restore whose pops all fit. -/
theorem restoreState_inside {s : State}
    (h : ∀ a ∈ popSlots (s.reg .fp) (11 + retCount s), WordInside s a) :
    ∃ t, restoreState s = .ok t ∧
      t.reg .sp = s.reg .fp + 22#16 + BitVec.ofNat 16 (2 * retCount s) ∧
      t.reg .fp = s.reg .fp + s.wordAt (s.reg .fp + 2#16) ∧
      restoredRegs.map t.reg = (popSlots (s.reg .fp + 2#16) 9).map s.wordAt ∧
      t.reg .acc = s.reg .acc ∧ t.fsz = 0 ∧ t.mem = s.mem ∧ SameControl s t := by
  rw [show 11 + retCount s = 1 + (9 + (1 + retCount s)) by omega, popSlots_append, popSlots_append,
    popSlots_append] at h
  simp only [List.mem_append, Nat.mul_one, show 2 * 9 = 18 from rfl] at h
  have sub (a : Word) : s.reg .fp + 2#16 + 18#16 + a = s.reg .fp + 20#16 + a := by
    rw [BitVec.add_assoc (s.reg .fp)]; rfl
  have h1 : WordInside s (s.reg .fp + 2#16) := h _ (.inl (by simp [popSlots]))
  have p1 := pop_inside (s := s.setReg .sp (s.reg .fp)) (by simpa [WordInside] using h1)
  simp only [State.reg_setReg_self, State.setReg_wordAt, State.setReg_fsz] at p1
  obtain ⟨t, e, tsp, tm, tc, tr, tw⟩ := popIntoAll_inside (rs := restoredRegs)
    (s := ((((s.setReg .sp (s.reg .fp)).setReg .sp (s.reg .fp + 2#16)).setFsz (s.fsz - 2#16)).setFsz
      (s.wordAt (s.reg .fp + 2#16))))
    (by decide) (by decide) (fun a ha => by
      have := h a (.inr (.inl (by simpa [restoredRegs, savedRegs] using ha)))
      exact this)
  have len : restoredRegs.length = 9 := rfl
  simp only [State.setFsz_reg, State.reg_setReg_self, len] at tsp tw
  have tsp : t.reg .sp = s.reg .fp + 20#16 := by
    rw [tsp, BitVec.add_assoc]; rfl
  have tb : t.wordAt = s.wordAt := by
    funext a; simp [State.wordAt, State.byteAt, tm]
  have h3 : WordInside s (s.reg .fp + 22#16) := h _ (.inr (.inr (.inl (by
    simp only [popSlots, List.range_one, List.map_cons, List.map_nil, List.mem_singleton, sub]
    rw [BitVec.add_assoc]; rfl))))
  have e22 : t.reg .sp + 2#16 = s.reg .fp + 22#16 := by rw [tsp, BitVec.add_assoc]; rfl
  have p3 := pop_inside (s := t) (by
    rw [e22]; simpa [WordInside, tc.1] using h3)
  rw [e22, tb] at p3
  obtain ⟨u, e', usp, um, uc, ur⟩ := popDiscard_inside (n := retCount s)
    (s := (t.setReg .sp (s.reg .fp + 22#16)).setFsz (t.fsz - 2#16)) (fun a ha => by
      have := h a (.inr (.inr (.inr (by
        simp only [State.setFsz_reg, State.reg_setReg_self] at ha
        rw [sub]
        rw [show s.reg .fp + 20#16 + BitVec.ofNat 16 2 = s.reg .fp + 22#16 by rw [BitVec.add_assoc]; rfl]
        exact ha))))
      simpa [WordInside, tc.1] using this)
  have ureg : ∀ r, r ≠ .sp → u.reg r = t.reg r := fun r hr => by
    rw [ur r (by simpa using hr)]; simp [hr]
  refine ⟨(u.setReg .fp (s.reg .fp + s.wordAt (s.reg .fp + 2#16))).setFsz 0, ?_, ?_, by simp, ?_, ?_, rfl,
    ?_, ?_⟩
  · have er : popIntoAll (Reg.ip :: savedRegs.reverse) _ = _ := e
    have en : popDiscard (s.wordAt (s.reg .fp + 22#16)).toNat _ = _ := e'
    simp only [restoreState, p1, er, p3, en, bind, Except.bind, pure, Except.pure]
  · simpa [State.reg_setReg] using usp
  · have keep : ∀ r ∈ restoredRegs, r ≠ Reg.sp ∧ r ≠ Reg.fp := by decide
    rw [show (popSlots (s.reg .fp + 2#16) 9).map s.wordAt = restoredRegs.map t.reg from tw.symm]
    refine List.map_congr_left fun r hr => ?_
    simp [(keep r hr).2, ureg r (keep r hr).1]
  · simp only [State.setFsz_reg, State.reg_setReg]
    rw [if_neg (by decide), ureg _ (by decide), tr _ (by decide)]
    simp
  · exact um.trans tm
  · exact ⟨uc.1.trans tc.1, uc.2.trans tc.2⟩

/-- A state restore of which one pop does not fit raises. -/
theorem restoreState_outside {s : State}
    (h : ∃ a ∈ popSlots (s.reg .fp) (11 + retCount s), ¬ WordInside s a) :
    restoreState s = .error .outOfBounds := by
  rw [show 11 + retCount s = 1 + (9 + (1 + retCount s)) by omega, popSlots_append, popSlots_append,
    popSlots_append] at h
  simp only [List.mem_append, Nat.mul_one, show 2 * 9 = 18 from rfl] at h
  have sub (a : Word) : s.reg .fp + 2#16 + 18#16 + a = s.reg .fp + 20#16 + a := by
    rw [BitVec.add_assoc (s.reg .fp)]; rfl
  by_cases h1 : WordInside s (s.reg .fp + 2#16)
  · have p1 := pop_inside (s := s.setReg .sp (s.reg .fp)) (by simpa [WordInside] using h1)
    simp only [State.reg_setReg_self, State.setReg_wordAt, State.setReg_fsz] at p1
    by_cases h2 : ∀ a ∈ popSlots (s.reg .fp + 2#16) 9, WordInside s a
    · obtain ⟨t, e, tsp, tm, tc, tr, tw⟩ := popIntoAll_inside (rs := restoredRegs)
        (s := ((((s.setReg .sp (s.reg .fp)).setReg .sp (s.reg .fp + 2#16)).setFsz (s.fsz - 2#16)).setFsz
          (s.wordAt (s.reg .fp + 2#16))))
        (by decide) (by decide) (fun a ha => by
          have := h2 a (by simpa [restoredRegs, savedRegs] using ha)
          exact this)
      have er : popIntoAll (Reg.ip :: savedRegs.reverse) _ = _ := e
      have len : restoredRegs.length = 9 := rfl
      simp only [State.setFsz_reg, State.reg_setReg_self, len] at tsp
      have tsp : t.reg .sp = s.reg .fp + 20#16 := by
        rw [tsp, BitVec.add_assoc]; rfl
      have tb : t.wordAt = s.wordAt := by
        funext a; simp [State.wordAt, State.byteAt, tm]
      have e22 : t.reg .sp + 2#16 = s.reg .fp + 22#16 := by rw [tsp, BitVec.add_assoc]; rfl
      by_cases h3 : WordInside s (s.reg .fp + 22#16)
      · have p3 := pop_inside (s := t) (by rw [e22]; simpa [WordInside, tc.1] using h3)
        rw [e22, tb] at p3
        have e' := popDiscard_outside (n := retCount s)
          (s := (t.setReg .sp (s.reg .fp + 22#16)).setFsz (t.fsz - 2#16)) (by
            obtain ⟨a, ha, hn⟩ := h
            rcases ha with ha | ha | ha | ha
            · simp only [popSlots, List.range_one, List.map_cons, List.map_nil, List.mem_singleton] at ha
              exact absurd (ha ▸ h1) hn
            · exact absurd (h2 a ha) hn
            · simp only [popSlots, List.range_one, List.map_cons, List.map_nil, List.mem_singleton, sub] at ha
              have ha : a = s.reg .fp + 22#16 := by rw [ha, BitVec.add_assoc]; rfl
              exact absurd (ha ▸ h3) hn
            · refine ⟨a, ?_, by simpa [WordInside, tc.1] using hn⟩
              simp only [State.setFsz_reg, State.reg_setReg_self]
              rw [sub] at ha
              rw [show s.reg .fp + 20#16 + BitVec.ofNat 16 2 = s.reg .fp + 22#16 by
                rw [BitVec.add_assoc]; rfl] at ha
              exact ha)
        have en : popDiscard (s.wordAt (s.reg .fp + 22#16)).toNat _ = _ := e'
        simp only [restoreState, p1, er, p3, en, bind, Except.bind]
      · have p3 := pop_outside (s := t) (by rw [e22]; simpa [WordInside, tc.1] using h3)
        simp only [restoreState, p1, er, p3, bind, Except.bind]
    · have e := popIntoAll_outside (rs := restoredRegs)
        (s := ((((s.setReg .sp (s.reg .fp)).setReg .sp (s.reg .fp + 2#16)).setFsz (s.fsz - 2#16)).setFsz
          (s.wordAt (s.reg .fp + 2#16))))
        (by decide) (by
          simp only [not_forall] at h2
          obtain ⟨a, ha, hn⟩ := h2
          exact ⟨a, by simpa [restoredRegs, savedRegs] using ha, hn⟩)
      have er : popIntoAll (Reg.ip :: savedRegs.reverse) _ = _ := e
      simp only [restoreState, p1, er, bind, Except.bind]
  · have p1 := pop_outside (s := s.setReg .sp (s.reg .fp)) (by simpa [WordInside] using h1)
    simp only [restoreState, p1, bind, Except.bind]

end Sys2Proof.Machine
end

