-- ==== Sys2Proof/Laws/Decode.lean ====
section
/-! SUPPORT. The laws of the decoder and the encoder over one opcode byte, one register selector and one
operand field. -/

namespace Sys2Proof

theorem Reg.nth_number (r : Reg) : Reg.nth r.number = r := by cases r <;> rfl

theorem Reg.number_lt (r : Reg) : r.number < 12 := by cases r <;> decide

theorem Reg.number_nth (n : Nat) : (Reg.nth n).number = n % 12 := by
  have h : n % 12 < 12 := Nat.mod_lt _ (by decide)
  unfold Reg.nth
  generalize n % 12 = k at h
  interval_cases k <;> rfl

theorem Reg.number_injective {r q : Reg} (h : r.number = q.number) : r = q := by
  rw [← Reg.nth_number r, h, Reg.nth_number]

theorem Reg.number_ofSelector (b : Byte) : (Reg.ofSelector b).number = b.toNat % 12 := Reg.number_nth _

theorem Reg.toNat_selector (r : Reg) : r.selector.toNat = r.number := by cases r <;> rfl

@[simp] theorem Reg.ofSelector_selector (r : Reg) : Reg.ofSelector r.selector = r := by cases r <;> rfl

theorem Mnemonic.mem_all (m : Mnemonic) : m ∈ Mnemonic.all := by cases m <;> decide

/-- Distinct values: a value names one row. -/
theorem OpcodeMap.get_injective {o : OpcodeMap} (h : o.Injective) {m n : Mnemonic} (e : o.get m = o.get n) :
    m = n :=
  List.inj_on_of_nodup_map h (Mnemonic.mem_all m) (Mnemonic.mem_all n) e

/-- A byte that selects a row is that row's value. -/
theorem OpcodeMap.get_of_lookup {o : OpcodeMap} {b : Byte} {m : Mnemonic} (h : o.lookup b = some m) :
    o.get m = b := by
  simpa using List.find?_some h

/-- A byte selects no row exactly when it is none of the twelve values. -/
theorem OpcodeMap.lookup_eq_none {o : OpcodeMap} {b : Byte} : o.lookup b = none ↔ ∀ m, o.get m ≠ b := by
  simp only [OpcodeMap.lookup, List.find?_eq_none, beq_iff_eq]
  exact ⟨fun h m => h m (Mnemonic.mem_all m), fun h m _ => h m⟩

/-- Under distinct values each selects its own row. -/
theorem OpcodeMap.lookup_get {o : OpcodeMap} (h : o.Injective) (m : Mnemonic) : o.lookup (o.get m) = some m := by
  cases e : o.lookup (o.get m) with
  | none => exact absurd rfl (OpcodeMap.lookup_eq_none.mp e m)
  | some n => rw [OpcodeMap.get_injective h (OpcodeMap.get_of_lookup e)]

@[simp] theorem takeWord_wordBytes (w : Word) (rest : List Byte) :
    takeWord (wordBytes w ++ rest) = .ok (w, rest) := by
  simp [wordBytes, takeWord, Machine.bigEndian_high_low]

@[simp] theorem takeReg_selector (r : Reg) (rest : List Byte) :
    takeReg (r.selector :: rest) = .ok (r, rest) := by
  simp [takeReg]

@[simp] theorem length_wordBytes (w : Word) : (wordBytes w).length = 2 := rfl

end Sys2Proof
end

