-- ==== Sys2Proof/Laws/Operands.lean ====
section
/-! SUPPORT. The operand forms, the sum and the condition: one law each, so that no later proof unfolds them. -/

namespace Sys2Proof.Machine

/-- A selector source after the fetches: IP reads as the address of the next instruction. -/
theorem readSel_afterFetch (m : Mnemonic) (s : State) (r : Reg) :
    readSel (afterFetch m s) r = if r = .ip then s.reg .ip + BitVec.ofNat 16 m.length else s.reg r := by
  unfold readSel
  split
  · next h => rw [h, afterFetch_ip]
  · next h => exact afterFetch_reg m s h

theorem writeSel_eq (s : State) (r : Reg) (v : Word) : writeSel s r v = s.setReg r v := rfl
theorem jumpTo_eq (s : State) (a : Word) : jumpTo s a = s.setReg .ip a := rfl

/-- A raw index that names a register reads it. -/
theorem readIndex_of_number {s : State} {i : Byte} {r : Reg} (h : r.number = i.toNat) :
    readIndex s i = .ok (s.reg r) := by
  have := Reg.number_lt r
  rw [readIndex, rfRead, if_neg (by omega), ← h, Nat.mul_div_cancel_left _ (by decide), Reg.nth_number]

/-- A raw index of 12 or more lies outside the store. -/
theorem readIndex_outside {s : State} {i : Byte} (h : 12 ≤ i.toNat) : readIndex s i = .error .outOfBounds := by
  rw [readIndex, rfRead, if_pos (by omega)]

theorem loadAbs_eq (s : State) (a : Word) : loadAbs s a = memRead16 s a := rfl
theorem storeAbs_eq (s : State) (a v : Word) : storeAbs s a v = memWrite16 s a v := rfl

/-- The sum is the sum of words, which is modulo 2^16. -/
theorem addWords_eq (a b : Word) : addWords a b = a + b := by
  apply BitVec.eq_of_toNat_eq
  simp [addWords]

theorem notEqAcc_iff (s : State) (lit : Word) : notEqAcc s lit = true ↔ lit ≠ s.reg .acc := by
  simp [notEqAcc]

end Sys2Proof.Machine
end

