-- ==== Sys2Proof/Laws/PerInstr.lean ====
section
/-! SUPPORT. The facts about an instruction as syntax that are proved once per constructor: its encoding has the
length its opcode fixes (spec/30_encoding.md R82, R83). -/

namespace Sys2Proof.Laws.EncodedLength

/-- Under every opcode map the encoding of an instruction is as long as its row says. -/
def Statement (i : Instr) : Prop := ∀ opc, (encode opc i).length = i.length

theorem movLitReg (lit : Word) (rd : Reg) : Statement (.movLitReg lit rd) := fun _ => rfl
theorem movRegReg (rs rd : Reg) : Statement (.movRegReg rs rd) := fun _ => rfl
theorem movRegMem (rs : Reg) (addr : Word) : Statement (.movRegMem rs addr) := fun _ => rfl
theorem movMemReg (addr : Word) (rd : Reg) : Statement (.movMemReg addr rd) := fun _ => rfl
theorem addRegReg (i1 i2 : Byte) : Statement (.addRegReg i1 i2) := fun _ => rfl
theorem jmpNotEq (lit addr : Word) : Statement (.jmpNotEq lit addr) := fun _ => rfl
theorem pushLit (lit : Word) : Statement (.pushLit lit) := fun _ => rfl
theorem pushReg (rs : Reg) : Statement (.pushReg rs) := fun _ => rfl
theorem pop (rd : Reg) : Statement (.pop rd) := fun _ => rfl
theorem calLit (addr : Word) : Statement (.calLit addr) := fun _ => rfl
theorem calReg (rs : Reg) : Statement (.calReg rs) := fun _ => rfl
theorem ret : Statement .ret := fun _ => rfl

end Sys2Proof.Laws.EncodedLength
end

