-- ==== Sys2Proof/Laws/Step.lean ====
section
/-! SUPPORT. The fetch primitives, the fetches of a step, one step by the latch and the fetch, and a run by its first
step. -/

namespace Sys2Proof.Machine

/-! ### Fetches -/

theorem fetch8_inside {s : State} (h : (s.reg .ip).toNat + 1 ≤ s.params.memBytes) :
    fetch8 s = .ok (s.byteAt (s.reg .ip).toNat, s.setReg .ip (s.reg .ip + 1#16)) := by
  simp [fetch8, memRead8_eq, h, bind, Except.bind, pure, Except.pure]

theorem fetch8_outside {s : State} (h : ¬ (s.reg .ip).toNat + 1 ≤ s.params.memBytes) :
    fetch8 s = .error .outOfBounds := by
  simp [fetch8, memRead8_eq, h, bind, Except.bind]

theorem fetchReg_inside {s : State} (h : (s.reg .ip).toNat + 1 ≤ s.params.memBytes) :
    fetchReg s = .ok (Reg.ofSelector (s.byteAt (s.reg .ip).toNat), s.setReg .ip (s.reg .ip + 1#16)) := by
  simp [fetchReg, fetch8_inside h, bind, Except.bind, pure, Except.pure]

theorem fetchReg_outside {s : State} (h : ¬ (s.reg .ip).toNat + 1 ≤ s.params.memBytes) :
    fetchReg s = .error .outOfBounds := by
  simp [fetchReg, fetch8_outside h, bind, Except.bind]

theorem fetch16_inside {s : State} (h : (s.reg .ip).toNat + 2 ≤ s.params.memBytes) :
    fetch16 s = .ok (s.wordAt (s.reg .ip), s.setReg .ip (s.reg .ip + 2#16)) := by
  simp [fetch16, memRead16_inside (s := s) h, bind, Except.bind, pure, Except.pure]

theorem fetch16_outside {s : State} (h : ¬ (s.reg .ip).toNat + 2 ≤ s.params.memBytes) :
    fetch16 s = .error .outOfBounds := by
  simp [fetch16, memRead16_outside (s := s) h, bind, Except.bind]

/-- The two bytes of a word inside a memory of at most 65536 bytes stand at successive 16-bit addresses. -/
theorem State.wordAt_eq_bytes {s : State} {a : Word} (hp : s.params.memBytes ≤ 65536) (h : WordInside s a) :
    s.wordAt a = bigEndian (s.byteAt a.toNat) (s.byteAt (a + 1#16).toNat) := by
  have : (a + 1#16).toNat = a.toNat + 1 := by
    unfold WordInside at h
    simp only [BitVec.toNat_add, BitVec.toNat_ofNat]
    omega
  rw [State.wordAt, this]

/-! ### The fetches of a step -/

/-- Operand fetches raise nothing but OutOfBounds. -/
theorem readOperands_error {m : Mnemonic} {s : State} {e : Fault}
    (h : readOperands fetch8 fetchReg fetch16 m s = .error e) : e = .outOfBounds := by
  have f8 : ∀ s e, fetch8 s = .error e → e = .outOfBounds := by
    intro s e h
    by_cases g : (s.reg .ip).toNat + 1 ≤ s.params.memBytes
    · rw [fetch8_inside g] at h; cases h
    · rw [fetch8_outside g] at h; cases h; rfl
  have fr : ∀ s e, fetchReg s = .error e → e = .outOfBounds := by
    intro s e h
    by_cases g : (s.reg .ip).toNat + 1 ≤ s.params.memBytes
    · rw [fetchReg_inside g] at h; cases h
    · rw [fetchReg_outside g] at h; cases h; rfl
  have f16 : ∀ s e, fetch16 s = .error e → e = .outOfBounds := by
    intro s e h
    by_cases g : (s.reg .ip).toNat + 2 ≤ s.params.memBytes
    · rw [fetch16_inside g] at h; cases h
    · rw [fetch16_outside g] at h; cases h; rfl
  have seq : ∀ {α β} (x : Except Fault α) (f : α → Except Fault β), (∀ e, x = .error e → e = .outOfBounds) →
      (∀ a e, f a = .error e → e = .outOfBounds) → ∀ e, x >>= f = .error e → e = .outOfBounds := by
    intro α β x f h1 h2 e h
    cases x with
    | error e' => exact h1 e (by simpa [bind, Except.bind] using h)
    | ok a => exact h2 a e h
  suffices all : ∀ e, readOperands fetch8 fetchReg fetch16 m s = .error e → e = .outOfBounds from all e h
  clear h
  cases m <;> simp only [readOperands]
  all_goals first
    | (intro e h; cases h)
    | (refine seq _ _ (by first | exact f8 _ | exact fr _ | exact f16 _) ?_
       intro a
       first
       | (intro e h; cases h)
       | (refine seq _ _ (by first | exact f8 _ | exact fr _ | exact f16 _) ?_
          intro a e h
          cases h))

/-- The fetches of a step raise nothing but OutOfBounds. -/
theorem fetchInstr_error {s : State} {e : Fault} (h : fetchInstr s = .error e) : e = .outOfBounds := by
  unfold fetchInstr at h
  by_cases g : (s.reg .ip).toNat + 1 ≤ s.params.memBytes
  · simp only [fetch8_inside g, bind, Except.bind] at h
    split at h
    · cases h
    · next m _ =>
      cases q : readOperands fetch8 fetchReg fetch16 m (s.setReg .ip (s.reg .ip + 1#16)) with
      | error e' =>
        simp only [q, Except.error.injEq] at h
        exact h ▸ readOperands_error q
      | ok x => simp [q, pure, Except.pure] at h
  · simp only [fetch8_outside g, bind, Except.bind] at h
    cases h
    rfl

/-- The fetches of a step find an unrecognised opcode exactly when the byte at IP exists and is no row's value. -/
theorem fetchInstr_unrecognised {s : State} :
    (∃ b, fetchInstr s = .ok (.unrecognised b)) ↔
      (s.reg .ip).toNat < s.params.memBytes ∧ ∀ m, s.params.opc.get m ≠ s.byteAt (s.reg .ip).toNat := by
  constructor
  · rintro ⟨b, h⟩
    unfold fetchInstr at h
    by_cases g : (s.reg .ip).toNat + 1 ≤ s.params.memBytes
    · simp only [fetch8_inside g, bind, Except.bind] at h
      split at h
      · next e => exact ⟨by omega, OpcodeMap.lookup_eq_none.mp e⟩
      · next m _ =>
        cases q : readOperands fetch8 fetchReg fetch16 m (s.setReg .ip (s.reg .ip + 1#16)) with
        | error e' => simp [q] at h
        | ok x => simp [q, pure, Except.pure] at h
    · simp only [fetch8_outside g, bind, Except.bind] at h
      cases h
  · rintro ⟨h, hm⟩
    refine ⟨s.byteAt (s.reg .ip).toNat, ?_⟩
    simp only [fetchInstr, fetch8_inside (s := s) (by omega), bind, Except.bind, OpcodeMap.lookup_eq_none.mpr hm]
    rfl

theorem execUnrecognised_fault {s : State} (h : s.params.illegalPolicy = .fault) :
    execUnrecognised s = .next (takeFault .illegalInstruction s) := by
  simp [execUnrecognised, h, commit_error]

theorem execUnrecognised_ignore {s : State} (h : s.params.illegalPolicy = .ignore) :
    execUnrecognised s = .next (s.setReg .ip (s.reg .ip + 1#16)) := by
  simp [execUnrecognised, h, commit_ok]

/-- Placing bytes keeps the canonical form and the bounds, and touches nothing but memory. -/
theorem storeBytes_keeps (bs : List Byte) (a : Word) (s : State) :
    (storeBytes bs a s).regs = s.regs ∧ (storeBytes bs a s).fsz = s.fsz ∧ SameControl s (storeBytes bs a s) ∧
      (s.mem.wf → (storeBytes bs a s).mem.wf) ∧
      (s.mem.within s.params.memBytes → (storeBytes bs a s).mem.within s.params.memBytes) := by
  induction bs generalizing a s with
  | nil => exact ⟨rfl, rfl, ⟨rfl, rfl⟩, id, id⟩
  | cons b bs ih =>
    rw [storeBytes]
    split
    · next h =>
      obtain ⟨h1, h2, h3, h4, h5⟩ := ih (a + 1#16) (s.setMem (s.mem.write a.toNat b))
      exact ⟨h1, h2, h3, fun w => h4 (Memory.wf_write _ _ w), fun w => h5 (Memory.within_write _ w h)⟩
    · exact ih _ _

/-! ### One step -/

theorem step_latched {s : State} {e : Fault} (h : s.fault = some e) : step s = .fault e := by
  simp [step, h]

/-- A step of a machine whose latch is clear, by what its fetches yield. -/
theorem step_clear {s : State} (h : s.fault = none) :
    step s = match fetchInstr s with
      | .error e => .next (takeFault e s)
      | .ok (.unrecognised _) => execUnrecognised s
      | .ok (.instr i) => exec i s := by
  simp only [step, h]
  cases fetchInstr s with
  | error e => rfl
  | ok f => cases f <;> rfl

/-! ### Runs -/

theorem runFor_zero (s : State) : runFor 0 s = (s, .completed) := rfl

theorem runFor_succ_completed {n : Nat} {s t : State} (h : stepRequest s = (t, .completed)) :
    runFor (n + 1) s = runFor n t := by
  simp only [runFor, h]

theorem runFor_succ_fault {n : Nat} {s t : State} {e : Fault} (h : stepRequest s = (t, .fault e)) :
    runFor (n + 1) s = (t, .fault e) := by
  simp only [runFor, h]

end Sys2Proof.Machine
end

