-- ==== Sys2Proof/Machine/Listing.lean ====
section
/-! DEFINITION. The two texts the spec gives a shape to: its listing notation of an instruction
(spec/30_encoding.md R92) and the memory dump of the front end (spec/70_reset_and_hazards.md R252). Both lie
outside the core (spec/00_scope.md R5); no step depends on them. -/

namespace Sys2Proof.Machine

/-- A hexadecimal digit; `upper` chooses the case of the letters. -/
def hexDigit (upper : Bool) (n : Nat) : Char :=
  Char.ofNat (if n % 16 < 10 then 48 + n % 16 else (if upper then 55 else 87) + n % 16)

/-- `0xNN`, two digits, zero-padded. -/
def hexByte (upper : Bool) (b : Byte) : String :=
  String.ofList ['0', 'x', hexDigit upper (b.toNat / 16), hexDigit upper b.toNat]

/-- `0xNNNN`, four digits, zero-padded. -/
def hexWord (upper : Bool) (w : Word) : String :=
  String.ofList ['0', 'x', hexDigit upper (w.toNat / 4096), hexDigit upper (w.toNat / 256),
    hexDigit upper (w.toNat / 16), hexDigit upper w.toNat]

/-- A raw register index in a listing: a register name when it is 0 to 11, else a decimal number (R92). -/
def indexText (i : Byte) : String :=
  if i.toNat < 12 then Reg.name (Reg.nth i.toNat) else toString i.toNat

/-- The mnemonic of a row as the opcode table spells it (spec/30_encoding.md R84). -/
def Mnemonic.text : Mnemonic → String
  | .movLitReg => "MOV_LIT_REG"
  | .movRegReg => "MOV_REG_REG"
  | .movRegMem => "MOV_REG_MEM"
  | .movMemReg => "MOV_MEM_REG"
  | .addRegReg => "ADD_REG_REG"
  | .jmpNotEq => "JMP_NOT_EQ"
  | .pushLit => "PUSH_LIT"
  | .pushReg => "PUSH_REG"
  | .pop => "POP"
  | .calLit => "CAL_LIT"
  | .calReg => "CAL_REG"
  | .ret => "RET"

/-- The operands of an instruction in encoding order, as a listing writes them (R92). -/
def operandTexts : Instr → List String
  | .movLitReg lit rd => [hexWord true lit, Reg.name rd]
  | .movRegReg rs rd => [Reg.name rs, Reg.name rd]
  | .movRegMem rs addr => [Reg.name rs, hexWord true addr]
  | .movMemReg addr rd => [hexWord true addr, Reg.name rd]
  | .addRegReg i1 i2 => [indexText i1, indexText i2]
  | .jmpNotEq lit addr => [hexWord true lit, hexWord true addr]
  | .pushLit lit => [hexWord true lit]
  | .pushReg rs => [Reg.name rs]
  | .pop rd => [Reg.name rd]
  | .calLit addr => [hexWord true addr]
  | .calReg rs => [Reg.name rs]
  | .ret => []

/-- The mnemonic, then the operands separated by commas (R92). -/
def listing (i : Instr) : String :=
  match operandTexts i with
  | [] => Mnemonic.text i.mnemonic
  | ts => Mnemonic.text i.mnemonic ++ " " ++ String.intercalate ", " ts

/-- The eight bytes `M[address] .. M[address + 7]` (R252). -/
def dumpBytes (s : State) (addr : Word) : Except Fault (List Byte) :=
  if s.params.memBytes < addr.toNat + 8 then .error .outOfBounds
  else .ok ((List.range 8).map fun k => s.byteAt (addr.toNat + k))

/-- The memory dump: `0x<addr>: 0xNN 0xNN ...` (R252). DESIGN CHOICE (unsafe): the source settles neither the case of
the digits, nor what a dump near the end of memory prints, nor the line ending; the model takes the lower case of
the spec's example, answers OutOfBounds, and ends the text after the eighth byte with no line end;
notes/assumptions/11.md. -/
def memoryDump (s : State) (addr : Word) : Except Fault String := do
  let bs ← dumpBytes s addr
  pure (hexWord false addr ++ ": " ++ String.intercalate " " (bs.map (hexByte false)))

end Sys2Proof.Machine
end

