-- ==== Sys2Proof/Tests/Slice0.lean ====
section
/-! SUPPORT. Tests. Every expected value is from outside the model: a worked example of a rule, a vector of
spec/95_test_vectors.md (named V-…), or, for a refused term, the constraint it breaks. After them one witness for
each statement that has hypotheses: concrete values that meet all of them, at the ends of their ranges. -/

namespace Sys2Proof.Tests

open Sys2Proof.Machine

/-! ### Small states -/

/-- The default parameters with another memory size (MEM_BYTES = 256 in the vectors). -/
def sized (n : Nat) : Params := { Params.default with memBytes := n }

/-- The default parameters with the original's policy for unrecognised opcodes. -/
def ignoring : Params := { Params.default with illegalPolicy := .ignore }

/-- Reset with bytes at an address, IP there. -/
def start (p : Params) (a : Word) (bytes : List Byte) : State :=
  (storeBytes bytes a (State.resetWith p [])).setReg .ip a

/-- Register values of a vector's start column. -/
def withRegs (s : State) (rs : List (Reg × Word)) : State := rs.foldl (fun t p => t.setReg p.1 p.2) s

/-- More bytes in memory. -/
def withBytes (s : State) (a : Word) (bytes : List Byte) : State := storeBytes bytes a s

/-- What a request for one step answers and a reading of the state it leaves. -/
def seen {α : Type} (s : State) (f : State → α) : Answer × α := ((stepRequest s).2, f (stepRequest s).1)

/-- "unchanged": the step answers a fault and leaves all but the latch as it was. -/
def unchangedBut (s : State) (e : Fault) : Bool := stepRequest s == ({ s with fault := some e }, .fault e)

/-- The state of a next outcome. -/
def stateOf (o : Host.Outcome State Fault Refusal) : Option State :=
  match o with
  | .next t => some t
  | .fault _ => none
  | .refused _ => none

/-- From what the kernel evaluates of an outcome to a next state that satisfies it. -/
theorem next_of {o : Host.Outcome State Fault Refusal} (p : State → Bool) (h : (stateOf o).any p = true) :
    ∃ t, o = .next t ∧ p t = true := by
  cases o with
  | next t => exact ⟨t, rfl, h⟩
  | fault e => cases h
  | refused r => cases h

/-! ### WellFormed: what each check refuses (R6) -/

theorem test_wf_default : Params.default.WellFormed := by decide
theorem test_wf_memory_too_small : ¬ (sized 1).WellFormed := by decide
theorem test_wf_memory_too_large : ¬ (sized 65537).WellFormed := by decide
theorem test_wf_opcode_twice : ¬ ({ Params.default with opc := { OpcodeMap.default with ret := 0x10 } }).WellFormed := by
  decide
theorem test_wf_ends : (sized 2).WellFormed ∧ (sized 65536).WellFormed := by decide
theorem test_wf_instr : (Instr.addRegReg 255 12).wellFormed = true := by decide

/-! ### Decoding: one word per constructor, bits numbered as the opcode table numbers them (R82, R85, R93) -/

theorem test_decode_movLitReg : decodeTableWord 32 0x02341210 = some (.movLitReg 0x1234 .r1) := by decide
theorem test_decode_movRegReg : decodeTableWord 24 0x030211 = some (.movRegReg .r1 .r2) := by decide
theorem test_decode_movRegMem : decodeTableWord 32 0x00010112 = some (.movRegMem .acc 0x0100) := by decide
theorem test_decode_movMemReg : decodeTableWord 32 0x02000113 = some (.movMemReg 0x0100 .r1) := by decide
theorem test_decode_addRegReg : decodeTableWord 24 0x0E0214 = some (.addRegReg 2 14) := by decide
theorem test_decode_jmpNotEq : decodeTableWord 40 0x3412030015 = some (.jmpNotEq 0x0003 0x1234) := by decide
theorem test_decode_pushLit : decodeTableWord 24 0x341217 = some (.pushLit 0x1234) := by decide
theorem test_decode_pushReg : decodeTableWord 16 0x0A18 = some (.pushReg .sp) := by decide
theorem test_decode_pop : decodeTableWord 16 0x0B1A = some (.pop .fp) := by decide
theorem test_decode_calLit : decodeTableWord 24 0x00305E = some (.calLit 0x3000) := by decide
theorem test_decode_calReg : decodeTableWord 16 0x045F = some (.calReg .r3) := by decide
theorem test_decode_ret : decodeTableWord 8 0x60 = some .ret := by decide

/-- 0x00, 0x16, 0x19 and 0xFF are unrecognised (R89). -/
theorem test_decode_unrecognised :
    [0x00, 0x16, 0x19, 0xFF].map (decodeTableWord 8) = [none, none, none, none] := by decide

/-- The bytes 2, 14 and 26 select R1, and 255 selects R2 (R87). -/
theorem test_decode_selectors : ([2, 14, 26, 255] : List Byte).map Reg.ofSelector = [.r1, .r1, .r1, .r2] := by decide

theorem test_decode_truncated : decode OpcodeMap.default [0x15, 0x00, 0x03, 0x12] = .error .truncated := by rfl

theorem test_encode : encode OpcodeMap.default (.movLitReg 0x1234 .r1) = [0x10, 0x12, 0x34, 0x02] := by decide

/-- The lengths of R82 to R84, in the order of the table. -/
theorem test_lengths : Mnemonic.all.map Mnemonic.length = [4, 3, 4, 4, 3, 5, 3, 2, 2, 3, 2, 1] := by decide

/-! ### One step each (spec/95_test_vectors.md part 2) -/

/-- V-M2. -/
theorem test_movLitReg_selector : seen (start Params.default 0 [0x10, 0xAB, 0xCD, 0xFF]) (fun t => (t.reg .r2, t.reg .ip))
    = (.completed, (0xABCD, 0x0004)) := by decide
/-- V-M3. -/
theorem test_movLitReg_jump : seen (start Params.default 0x20 [0x10, 0x12, 0x34, 0x00]) (fun t => t.reg .ip)
    = (.completed, 0x1234) := by decide
/-- V-M4. -/
theorem test_movRegReg_ip : seen (start Params.default 0x40 [0x11, 0x00, 0x02]) (fun t => (t.reg .r1, t.reg .ip))
    = (.completed, (0x0043, 0x0043)) := by decide
/-- V-M5. -/
theorem test_movRegReg_order : seen (withRegs (start Params.default 0x40 [0x11, 0x02, 0x00]) [(.r1, 0x0200)])
    (fun t => (t.reg .ip, t.reg .r1)) = (.completed, (0x0200, 0x0200)) := by decide
/-- V-M7. -/
theorem test_movRegMem_odd : seen (withRegs (start Params.default 0 [0x12, 0x02, 0x01, 0x01]) [(.r1, 0xA1B2)])
    (fun t => ([0x100, 0x101, 0x102, 0x103].map t.byteAt, t.reg .ip))
    = (.completed, ([0x00, 0xA1, 0xB2, 0x00], 0x0004)) := by decide
/-- V-M8. -/
theorem test_movRegMem_outside :
    unchangedBut (withRegs (start Params.default 0 [0x12, 0x02, 0xFF, 0xFF]) [(.r1, 0xA1B2)]) .outOfBounds = true := by
  decide
/-- V-M14. -/
theorem test_movMemReg_odd :
    seen (withBytes (start Params.default 0 [0x13, 0x01, 0x01, 0x02]) 0x100 [0xBE, 0xEF, 0x12])
    (fun t => (t.reg .r1, t.reg .ip)) = (.completed, (0xEF12, 0x0004)) := by decide
/-- V-M18. -/
theorem test_movMemReg_sp : seen (withBytes (start Params.default 0 [0x13, 0x01, 0x00, 0x0A]) 0x100 [0x80, 0x00])
    (fun t => (t.reg .sp, t.reg .fp, t.fsz)) = (.completed, (0x8000, 0xFFFE, 0)) := by decide
/-- V-A10. -/
theorem test_addRegReg_wraps : seen (start Params.default 0 [0x14, 0x0A, 0x0B]) (fun t => (t.reg .acc, t.reg .ip))
    = (.completed, (0xFFFC, 0x0003)) := by decide
/-- V-A8. -/
theorem test_addRegReg_index :
    unchangedBut (withRegs (start Params.default 0 [0x14, 0x02, 0x0E]) [(.r1, 1)]) .outOfBounds = true := by decide
/-- V-J1. -/
theorem test_jmpNotEq_taken : seen (withRegs (start Params.default 0 [0x15, 0x00, 0x03, 0x12, 0x34]) [(.acc, 1)])
    (fun t => (t.reg .ip, t.reg .acc)) = (.completed, (0x1234, 1)) := by decide
/-- V-J2. -/
theorem test_jmpNotEq_falls : seen (withRegs (start Params.default 0 [0x15, 0x00, 0x03, 0x12, 0x34]) [(.acc, 3)])
    (fun t => t.reg .ip) = (.completed, 0x0005) := by decide
/-- V-S4. -/
theorem test_pushLit_wraps : seen (withRegs (start Params.default 0x10 [0x17, 0xAA, 0xBB]) [(.sp, 0)])
    (fun t => (t.byteAt 0, t.byteAt 1, t.reg .sp, t.fsz, t.reg .ip))
    = (.completed, (0xAA, 0xBB, 0xFFFE, 2, 0x0013)) := by decide
/-- V-S6. -/
theorem test_pushLit_outside :
    unchangedBut (withRegs (start Params.default 0 [0x17, 0xAA, 0xBB]) [(.sp, 0xFFFF)]) .outOfBounds = true := by decide
/-- V-S2. -/
theorem test_pushReg_sp : seen (start Params.default 0 [0x18, 0x0A])
    (fun t => (t.byteAt 0xFFFE, t.byteAt 0xFFFF, t.reg .sp, t.fsz)) = (.completed, (0xFF, 0xFE, 0xFFFC, 2)) := by decide
/-- V-S3. -/
theorem test_pushReg_ip : seen (start Params.default 0x30 [0x18, 0x00]) (fun t => (t.wordAt 0xFFFE, t.reg .ip))
    = (.completed, (0x0032, 0x0032)) := by decide
/-- V-S9. -/
theorem test_pop_sp : seen (withBytes (withRegs (start Params.default 0 [0x1A, 0x0A]) [(.sp, 0xFFFC)]) 0xFFFE [0x12, 0x00])
    (fun t => (t.reg .sp, t.reg .ip)) = (.completed, (0x1200, 0x0002)) := by decide
/-- V-S7. -/
theorem test_pop_empty : seen (start Params.default 0 [0x1A, 0x02]) (fun t => (t.reg .sp, t.reg .r1, t.fsz))
    = (.completed, (0x0000, 0x1A02, 0xFFFE)) := by decide
/-- V-C1. -/
theorem test_calLit_frame : seen ((withRegs (start Params.default 0x14 [0x5E, 0x30, 0x00])
    [(.sp, 0xFFF6), (.r1, 0x1234), (.r4, 0x5678)]).setFsz 8)
    (fun t => ((List.range 10).map (fun k => t.wordAt (BitVec.ofNat 16 (0xFFE4 + 2 * k))), t.reg .sp, t.reg .fp, t.fsz,
      t.reg .ip, t.reg .r4))
    = (.completed, ([0x001C, 0x0017, 0, 0, 0, 0, 0x5678, 0, 0, 0x1234], 0xFFE2, 0xFFE2, 0, 0x3000, 0x5678)) := by decide
/-- V-C6. -/
theorem test_calLit_partial :
    unchangedBut (withRegs (start (sized 256) 0x80 [0x5E, 0x00, 0x90]) [(.sp, 0x10), (.fp, 0x10)]) .outOfBounds = true := by
  decide
/-- V-C3. -/
theorem test_calReg_sp : seen (start Params.default 0 [0x5F, 0x0A])
    (fun t => (t.reg .ip, t.wordAt 0xFFEC, t.wordAt 0xFFEE, t.reg .sp, t.reg .fp))
    = (.completed, (0xFFFE, 0x0014, 0x0002, 0xFFEA, 0xFFEA)) := by decide
/-- V-C4. -/
theorem test_calReg_ip : seen (start Params.default 0x50 [0x5F, 0x00]) (fun t => (t.reg .ip, t.wordAt 0xFFEE, t.reg .fp))
    = (.completed, (0x0052, 0x0052, 0xFFEA)) := by decide

/-- The frame of V-C8. -/
def frame : List Byte :=
  [0x00, 0x1A, 0x00, 0x40, 0x00, 0x08, 0x00, 0x07, 0x00, 0x06, 0x00, 0x05, 0x00, 0x04] ++
  [0x00, 0x03, 0x00, 0x02, 0x00, 0x01, 0x00, 0x02, 0x00, 0xBB, 0x00, 0xAA]

/-- The start of V-C8. -/
def returning : State :=
  (withBytes (withRegs (start (sized 256) 0 [0x60]) [(.fp, 0xDE), (.sp, 0xD0)]) 0xE0 frame).setFsz 4

/-- V-C8. -/
theorem test_ret_arguments : seen returning
    (fun t => ([Reg.ip, .r8, .r7, .r6, .r5, .r4, .r3, .r2, .r1, .sp, .fp].map t.reg, t.fsz))
    = (.completed, ([0x40, 8, 7, 6, 5, 4, 3, 2, 1, 0xF8, 0xF8], 0)) := by decide
/-- V-C11. -/
theorem test_ret_discarded : unchangedBut
    (withBytes (withRegs (start (sized 256) 0 [0x60]) [(.fp, 0xE6)]) 0xFC [0x00, 0x02]) .outOfBounds = true := by decide

/-! ### Fetch, unrecognised opcodes, the latch, reset -/

/-- V-I2. -/
theorem test_ignore : seen (start ignoring 0 [0x00]) (fun t => t == (start ignoring 0 [0x00]).setReg .ip 1)
    = (.completed, true) := by decide
/-- V-I3. -/
theorem test_illegal : unchangedBut (start Params.default 0 [0x16]) .illegalInstruction = true := by decide
/-- V-I9: a word fetch does not wrap. -/
theorem test_fetch_word_top : unchangedBut (start Params.default 0xFFFE [0x17, 0xAA]) .outOfBounds = true := by decide
/-- V-I10: byte fetches do. -/
theorem test_fetch_byte_wraps :
    seen (withRegs (withBytes (start Params.default 0xFFFF [0x18]) 0 [0x02]) [(.r1, 0x1111)])
    (fun t => (t.wordAt 0xFFFE, t.reg .sp, t.reg .ip)) = (.completed, (0x1111, 0xFFFC, 0x0001)) := by decide
/-- V-J5: the fault comes though the jump would not be taken. -/
theorem test_fetch_before_compare : unchangedBut
    (withRegs (start (sized 256) 0xFC [0x15, 0x00, 0x03, 0x12]) [(.acc, 3)]) .outOfBounds = true := by decide
/-- V-I7. -/
theorem test_fetch_outside : unchangedBut (start (sized 256) 0x100 []) .outOfBounds = true := by decide
/-- V-I11: the latch is sticky. -/
theorem test_latched : stepRequest { start Params.default 0 [0x60] with fault := some .illegalInstruction }
    = ({ start Params.default 0 [0x60] with fault := some .illegalInstruction }, .fault .illegalInstruction) := by decide
/-- V-I12: reset clears the latch and keeps memory. -/
theorem test_reset_request :
    (resetRequest (withRegs (takeFault .illegalInstruction (start Params.default 0 [0x16])) [(.r1, 5)]) ==
      start Params.default 0 [0x16]) = true := by decide
/-- R35: SP = FP = 0xFFFE, and 0x00FE with 256 bytes. -/
theorem test_reset_sp : (State.reset.reg .sp, State.reset.reg .fp, (State.resetWith (sized 256) []).reg .sp)
    = (0xFFFE, 0xFFFE, 0x00FE) := by decide
/-- A word placed for the next step runs as the first instruction after reset. -/
theorem test_withFetchWord : seen (State.reset.withFetchWord 32 0x02341210) (fun t => (t.reg .r1, t.reg .ip))
    = (.completed, (0x1234, 0x0004)) := by decide

/-! ### Memory, the host's observation, the two texts -/

/-- R51: after a word write the bytes read high, then low; a write of 0x00 lists nothing. -/
theorem test_memory_write : ((Memory.write (Memory.write [] 7 0x12) 3 0x34) = [(3, 0x34), (7, 0x12)]) ∧
    Memory.write [(3, 0x34), (7, 0x12)] 3 0 = [(7, 0x12)] := by decide
/-- R249, R250. -/
theorem test_peek_register : peekRegister State.reset "SP" = .ok 0xFFFE ∧
    peekRegister State.reset "PC" = .error .unknownRegister := by exact ⟨rfl, rfl⟩
/-- R251. -/
theorem test_peek_memory : peekMemory (start (sized 256) 0 [0xBE, 0xEF]) 0 = .ok 0xBEEF ∧
    peekMemory (start (sized 256) 0 []) 0xFF = .error .outOfBounds := by exact ⟨rfl, rfl⟩
/-- R92, and a raw index out of range as a decimal number. -/
theorem test_listing : listing (.movLitReg 0x1234 .r1) = "MOV_LIT_REG 0x1234, R1" ∧
    listing (.addRegReg 2 14) = "ADD_REG_REG R1, 14" ∧ listing .ret = "RET" := by decide
/-- R252's example. -/
theorem test_dump : memoryDump (withBytes State.reset 0xFFF6 [0x12, 0x34, 0x00, 0x00, 0x00, 0x00, 0x56, 0x78]) 0xFFF6
    = .ok "0xfff6: 0x12 0x34 0x00 0x00 0x00 0x00 0x56 0x78" := by rfl

/-! ### Witnesses: values that meet all hypotheses of a statement together, at the ends of the ranges -/

theorem witness_DecodeInvertsEncode : OpcodeMap.default.Injective := by decide
theorem witness_DecodeConsumesOpcodeLength : decode OpcodeMap.default [0x60, 0xFF] = .ok (.ret, [0xFF]) := by rfl
theorem witness_SelectorByteReducedModulo12 : OpcodeMap.default.Injective ∧ Reg.number .r2 = (255#8).toNat % 12 ∧
    Reg.number .ip = (12#8).toNat % 12 := by decide
theorem witness_AddOperandsAreRawIndices : OpcodeMap.default.Injective ∧ Reg.number .fp = (11#8).toNat ∧
    12 ≤ (12#8).toNat := by decide
theorem witness_OpcodeByteSelectsItsRow : OpcodeMap.default.Injective ∧ OpcodeMap.default.lookup 0x16 = none ∧
    OpcodeMap.default.lookup 0x60 = some .ret := by decide
theorem witness_OperandBytesNeverIllegal : OpcodeMap.default.Injective ∧
    Mnemonic.jmpNotEq.length ≤ [255#8, 255, 255, 255].length + 1 := by decide
theorem witness_RegisterStoreReadIsBoundsChecked : 24 < 23 + 2 ∧ ¬ 24 < 22 + 2 ∧ 22 = 2 * Reg.number .fp := by decide
theorem witness_ResetLeavesTheStatedValues : Params.default.memBytes = 65536 ∧ (sized 256).memBytes = 256 := by decide
theorem witness_ResetRequestKeepsMemory : stepRequest State.reset =
    (takeFault .illegalInstruction State.reset, .fault .illegalInstruction) := by decide
theorem witness_MemoryReadsAreBoundsChecked : (sized 256).memBytes < (256#16).toNat + 1 ∧
    (255#16).toNat + 1 ≤ (sized 256).memBytes ∧ (sized 256).memBytes < (255#16).toNat + 2 ∧
    (254#16).toNat + 2 ≤ (sized 256).memBytes ∧ State.reset.params.memBytes ≤ 65536 := by decide
theorem witness_WordsAreBigEndian : State.reset.params.WellFormed ∧ WordInside State.reset 0xFFFD ∧
    WordInside State.reset (0xFFFD#16 + 1#16) ∧ (start Params.default 0xFFFD []).reg .ip = 0xFFFD := by
  unfold WordInside; decide
theorem witness_WordWriteStoresBigEndian : WordInside State.reset 0xFFFE ∧ ¬ WordInside State.reset 0xFFFF := by
  unfold WordInside; decide
theorem witness_ByteWriteStoresOneByte : (255#16).toNat + 1 ≤ (sized 256).memBytes ∧
    (sized 256).memBytes < (256#16).toNat + 1 := by decide
theorem witness_LaunchLoadsTheImage : (sized 2).WellFormed ∧ [0x60#8, 0x60].length ≤ (sized 2).memBytes := by decide
theorem witness_FetchReadsAtIpAndAdvances :
    ((start (sized 256) 255 []).reg .ip).toNat + 1 ≤ 256 ∧ ¬ WordInside (start (sized 256) 255 []) 255 ∧
    256 < ((start (sized 256) 256 []).reg .ip).toNat + 1 ∧ WordInside (start (sized 256) 254 []) 254 := by
  unfold WordInside; decide
theorem witness_ByteFetchWrapsAndWordFetchFaults : (start Params.default 0xFFFF []).params.memBytes = 65536 ∧
    (start Params.default 0xFFFF []).reg .ip = 0xFFFF := by decide

/-- The longest instruction as the last one of memory: all its fetches fit, one byte later they do not. -/
def lastJump : State := start (sized 256) 0xFB [0x15, 0x00, 0x03, 0x12, 0x34]

theorem witness_StepRunsTheDecodedInstruction : lastJump.params.WellFormed ∧ lastJump.fault = none ∧
    Fetchable lastJump (Instr.jmpNotEq 0x0003 0x1234).mnemonic ∧
    decode lastJump.params.opc (bytesFrom lastJump (lastJump.reg .ip) 5) = .ok (.jmpNotEq 0x0003 0x1234, []) := by
  refine ⟨by decide, rfl, ?_, rfl⟩
  unfold Fetchable; decide
/-- A selector fetched across the end of a memory of 65536 bytes is fetched at 0x0000. -/
theorem witness_StepRunsTheDecodedInstruction_wrap : Fetchable (start Params.default 0xFFFF [0x18]) .pushReg := by
  unfold Fetchable; decide
theorem witness_FetchOutsideMemoryTakesFault : (start (sized 256) 256 []).fault = none ∧
    (start (sized 256) 256 []).params.memBytes < ((start (sized 256) 256 []).reg .ip).toNat + 1 ∧
    (start (sized 256) 0xFC [0x15]).params.opc.Injective ∧
    (start (sized 256) 0xFC [0x15]).params.opc.get .jmpNotEq = (start (sized 256) 0xFC [0x15]).byteAt 0xFC ∧
    ¬ Fetchable (start (sized 256) 0xFC [0x15]) .jmpNotEq := by
  refine ⟨rfl, by decide, by decide, by decide, ?_⟩
  unfold Fetchable; decide
theorem witness_UnrecognisedOpcodeFollowsThePolicy :
    (start Params.default 0 [0x16]).params.illegalPolicy = .fault ∧ (start ignoring 0 [0x16]).params.illegalPolicy = .ignore ∧
    (start ignoring 0 [0x16]).fault = none ∧ ((start ignoring 0 [0x16]).reg .ip).toNat < ignoring.memBytes ∧
    ∀ m ∈ Mnemonic.all, (start ignoring 0 [0x16]).params.opc.get m ≠
      (start ignoring 0 [0x16]).byteAt ((start ignoring 0 [0x16]).reg .ip).toNat := by decide
theorem witness_IllegalInstructionOnlyForUnrecognisedOpcode : State.reset.fault = none ∧
    State.reset.params.illegalPolicy = .fault ∧ State.reset.byteAt (State.reset.reg .ip).toNat = 0x00 := by decide
theorem witness_LatchedFaultIsSticky : (takeFault .outOfBounds State.reset).fault = some .outOfBounds := by decide
theorem witness_RunStopsAtTheFirstFault :
    runFor 3 State.reset = (takeFault .illegalInstruction State.reset, .fault .illegalInstruction) ∧
    (runFor 2 (start ignoring 0 [0x16, 0x16])).2 = .completed := by decide

/-! Words at the last address they fit at, and one address further. -/

theorem witness_MovRegMemResult : WordInside State.reset 0xFFFE := by unfold WordInside; decide
theorem witness_MovMemRegResult : WordInside (start (sized 256) 0 []) 254 := by unfold WordInside; decide
theorem witness_MoveOutsideMemoryTakesFault : ¬ WordInside State.reset 0xFFFF ∧ ¬ WordInside (start (sized 256) 0 []) 255 := by
  unfold WordInside; decide
theorem witness_AddRegRegResult : Reg.number .fp = (11#8).toNat ∧ Reg.number .ip = (0#8).toNat := by decide
theorem witness_AddIndexOutsideStoreTakesFault : 12 ≤ (12#8).toNat ∨ 12 ≤ (0#8).toNat := by decide
theorem witness_PushLitResult : WordInside State.reset (State.reset.reg .sp) := by unfold WordInside; decide
theorem witness_PushRegResult : WordInside (start (sized 256) 0 []) ((start (sized 256) 0 []).reg .sp) := by
  unfold WordInside; decide
theorem witness_PopResult : WordInside State.reset (State.reset.reg .sp + 2#16) := by unfold WordInside; decide
theorem witness_StackAccessOutsideMemoryTakesFault :
    ¬ WordInside (withRegs State.reset [(.sp, 0xFFFF)]) ((withRegs State.reset [(.sp, 0xFFFF)]).reg .sp) ∧
    ¬ WordInside (start (sized 256) 0 []) ((start (sized 256) 0 []).reg .sp + 2#16) := by unfold WordInside; decide
theorem witness_PushThenPopRoundTrip : WordInside (withRegs State.reset [(.sp, 0)]) 0 := by unfold WordInside; decide
theorem witness_SwapThroughTheStack : Reg.r1 ≠ .fp ∧ Reg.r1 ∉ [Reg.ip, .sp] ∧ Reg.fp ∉ [Reg.ip, .sp] ∧
    WordInside State.reset (State.reset.reg .sp) ∧ WordInside State.reset (State.reset.reg .sp - 2#16) := by
  unfold WordInside; decide
theorem witness_StackPointerWrapsAtTheEnds : State.reset.params.WellFormed ∧ (sized 3).memBytes = 3 ∧
    (withRegs State.reset [(.sp, 0)]).reg .sp = 0 ∧ (sized 256).WellFormed ∧ (sized 256).memBytes < 65536 ∧
    (withRegs (start (sized 3) 0 []) [(.sp, 1)]).reg .sp = 1 ∧
    (sized 256).memBytes - 1 ≤ ((withRegs (start (sized 256) 0 []) [(.sp, 255)]).reg .sp).toNat := by decide
/-- Every listed word lies inside memory, as the kernel evaluates it. -/
def fits (s : State) (ws : List Word) : Bool := ws.all fun a => Nat.ble (a.toNat + 2) s.params.memBytes

theorem fits_all {s : State} {ws : List Word} (h : fits s ws = true) : ∀ a ∈ ws, WordInside s a := by
  simpa [fits, WordInside] using h

theorem fits_not {s : State} {ws : List Word} (h : fits s ws = false) : ∃ a ∈ ws, ¬ WordInside s a := by
  simpa [fits, WordInside] using h

theorem witness_CalLitResult : ∀ a ∈ pushSlots (State.reset.reg .sp) 10, WordInside State.reset a :=
  fits_all (by decide)
/-- With 65536 bytes the ten pushes may wrap through address 0. -/
theorem witness_CalRegResult : ∀ a ∈ pushSlots ((withRegs State.reset [(.sp, 4)]).reg .sp) 10,
    WordInside (withRegs State.reset [(.sp, 4)]) a := fits_all (by decide)
theorem witness_CallOutsideMemoryTakesFault : ∃ a ∈ pushSlots ((withRegs (start (sized 256) 0 []) [(.sp, 0x10)]).reg .sp) 10,
    ¬ WordInside (withRegs (start (sized 256) 0 []) [(.sp, 0x10)]) a := fits_not (by decide)
theorem witness_RetResult : retCount returning = 2 ∧
    ∀ a ∈ popSlots (returning.reg .fp) (11 + retCount returning), WordInside returning a :=
  ⟨by decide, fits_all (by decide)⟩
theorem witness_RetOutsideMemoryTakesFault : ∃ a ∈ popSlots ((start (sized 256) 0 []).reg .fp)
    (11 + retCount (start (sized 256) 0 [])), ¬ WordInside (start (sized 256) 0 []) a := fits_not (by decide)

/-- A call site that conforms to R187: two arguments and their count pushed, the counter at 6. -/
def callSite : State :=
  (withBytes (withRegs (start (sized 256) 0x0D [0x5F, 0x04]) [(.r3, 0x20), (.sp, 0xF8)]) 0xFA
    [0x00, 0x02, 0x00, 0x14, 0x00, 0x0A]).setFsz 6

/-- What a callee may do: R1 and ACC overwritten, FP and the frame kept. -/
def callee (t : State) : State := withRegs t [(.r1, 0x0708), (.acc, 0x1E)]

theorem witness_CallThenReturnRestoresTheCaller : (∃ r, Instr.calReg .r3 = .calReg r) ∧
    (∀ a ∈ pushSlots (callSite.reg .sp) 10, WordInside callSite a) ∧ WordInside callSite (callSite.reg .sp + 2#16) ∧
    (∀ a ∈ popSlots (callSite.reg .sp + 2#16) (callSite.wordAt (callSite.reg .sp + 2#16)).toNat, WordInside callSite a) ∧
    ∃ t, exec (.calReg .r3) callSite = .next t ∧ ((callee t).params == t.params && (callee t).reg .fp == t.reg .fp &&
      (popSlots (t.reg .fp) 11).all (fun a => (callee t).wordAt a == t.wordAt a) &&
      (callee t).reg .r1 != callSite.reg .r1) = true := by
  refine ⟨⟨_, rfl⟩, fits_all (by decide), fits_all (ws := [_]) (by decide) _ List.mem_cons_self, fits_all (by decide),
    next_of (fun t => (callee t).params == t.params && (callee t).reg .fp == t.reg .fp &&
      (popSlots (t.reg .fp) 11).all (fun a => (callee t).wordAt a == t.wordAt a) &&
      (callee t).reg .r1 != callSite.reg .r1) (by decide)⟩

theorem witness_IpLeavesSequenceOnlyByControlTransfer : State.reset.fault = none ∧
    ∃ t, exec (.movLitReg 0x1234 .ip) State.reset = .next t ∧ (t.fault == none &&
      t.reg .ip != State.reset.reg .ip + BitVec.ofNat 16 (Instr.movLitReg 0x1234 .ip).length) = true :=
  ⟨rfl, next_of _ (by decide)⟩
theorem witness_OnlyStoresPushesAndCallsWriteMemory : ∃ t, exec (.pushLit 0x3333) State.reset = .next t ∧
    (t.mem != State.reset.mem) = true := next_of (fun t => t.mem != State.reset.mem) (by decide)
theorem witness_AccWrittenOnlyByAddOrSelector : ∃ t, exec (.addRegReg 10 11) State.reset = .next t ∧
    (t.reg .acc != State.reset.reg .acc) = true := next_of (fun t => t.reg .acc != State.reset.reg .acc) (by decide)
theorem witness_FrameCounterChangesOnlyByStackAndCalls : State.reset.fault = none ∧
    ∃ t, exec (.pop .r1) State.reset = .next t ∧ (t.fault == none) = true :=
  ⟨rfl, next_of (fun t => t.fault == none) (by decide)⟩
theorem witness_FrameCounterHiddenExceptThroughCalls :
    (fetchInstr returning = .ok (.instr .ret) ∧ ∃ t, step returning = .next t ∧ (t.fault == none) = true) ∧
    fetchInstr callSite = .ok (.instr (.calReg .r3)) ∧ ∃ t, step callSite = .next t ∧ (t.fault == none) = true :=
  ⟨⟨rfl, next_of (fun t => t.fault == none) (by decide)⟩, rfl, next_of (fun t => t.fault == none) (by decide)⟩
theorem witness_FaultingStepChangesOnlyTheLatch : State.reset.fault = none ∧
    ∃ t, step State.reset = .next t ∧ (t.fault == some .illegalInstruction) = true :=
  ⟨rfl, next_of (fun t => t.fault == some .illegalInstruction) (by decide)⟩
theorem witness_ParametersNeverChange : (takeFault .outOfBounds State.reset).fault ≠ none ∧
    ∃ t, step State.reset = .next t ∧ (t.fault != none) = true :=
  ⟨by decide, next_of (fun t => t.fault != none) (by decide)⟩
/-- The store of SP at the last word of memory, seen from a state whose IP is there. -/
theorem witness_StoreIsSeenByLaterFetches : State.reset.params.WellFormed ∧ State.reset.fault = none ∧
    ∃ t, exec (.movRegMem .sp 0xFFFE) State.reset = .next t ∧ (t.fault == none &&
      (t.setReg .ip 0xFFFE).mem == t.mem && (t.setReg .ip 0xFFFE).params == t.params &&
      (t.setReg .ip 0xFFFE).reg .ip == 0xFFFE) = true :=
  ⟨by decide, rfl, next_of _ (by decide)⟩

theorem inv_callSite : StateInv callSite := ⟨by decide, by decide, by decide, by decide⟩
theorem witness_StepKeepsTheInvariant : StateInv callSite ∧
    ∃ t, step callSite = .next t ∧ (t.fault == none) = true :=
  ⟨inv_callSite, next_of (fun t => t.fault == none) (by decide)⟩
theorem witness_ResetSatisfiesTheInvariant : (sized 2).WellFormed ∧ (sized 65536).WellFormed := by decide
theorem witness_PeekReadsRegistersAndMemory :
    "PC" ∉ ["IP", "ACC", "R1", "R2", "R3", "R4", "R5", "R6", "R7", "R8", "SP", "FP"] ∧
    (254#16).toNat + 2 ≤ (sized 256).memBytes ∧ (sized 256).memBytes < (255#16).toNat + 2 := by decide

end Sys2Proof.Tests
end

section
/-! The statements of spec/20_memory.md on word and byte access. The word write (O14) is the base: the byte order of
a mixed-width access (O13) is read off it. -/

namespace Sys2Proof.Machine

theorem memRead8_inside {s : State} {a : Word} (h : a.toNat + 1 ≤ s.params.memBytes) :
    memRead8 s a = .ok (s.byteAt a.toNat) := by
  rw [memRead8_eq, if_pos h]

theorem memRead8_outside {s : State} {a : Word} (h : s.params.memBytes < a.toNat + 1) :
    memRead8 s a = .error .outOfBounds := by
  rw [memRead8_eq, if_neg (Nat.not_le.mpr h)]

theorem not_wordInside_iff {s : State} {a : Word} : ¬ WordInside s a ↔ s.params.memBytes < a.toNat + 2 := by
  rw [WordInside, Nat.not_le]

theorem WordInside.of_params {s t : State} {a : Word} (h : WordInside s a) (hp : t.params = s.params) :
    WordInside t a := by
  rwa [WordInside, hp]

/-- The second byte of a word inside memory stands at the next 16-bit address: `a + 1` does not wrap (R56). -/
theorem WordInside.toNat_add_one {s : State} {a : Word} (hmax : s.params.memBytes ≤ 65536) (h : WordInside s a) :
    (a + 1#16).toNat = a.toNat + 1 := by
  have hfit : a.toNat + 2 ≤ s.params.memBytes := h
  rw [BitVec.toNat_add, BitVec.toNat_ofNat]
  omega

/-- The word of two bytes that are the halves of `v`. -/
theorem State.wordAt_of_halves {t : State} {a v : Word} (hh : t.byteAt a.toNat = highByte v)
    (hl : t.byteAt (a.toNat + 1) = lowByte v) : t.wordAt a = v := by
  rw [State.wordAt, hh, hl, bigEndian_high_low]

/-- Settles O14: the write answers a memory that holds the two halves, and the word is read back from them. -/
theorem wordWriteStoresBigEndian : Obligations.WordWriteStoresBigEndian := by
  refine fun s a v => ⟨fun ha => ?_, memWrite16_outside⟩
  obtain ⟨m, hw, hh, hl, hframe, -, -⟩ := memWrite16_inside (v := v) ha
  have hread : memRead16 (s.setMem m) a = .ok v := by
    rw [memRead16_inside (ha.of_params (s.setMem_params m)), State.wordAt_of_halves (t := s.setMem m) hh hl]
  refine ⟨s.setMem m, hw, hh, hl, fun b hb => ?_, hread, rfl, rfl, rfl, rfl⟩
  obtain ⟨hne, hne1⟩ := hb a List.mem_cons_self
  exact hframe b hne hne1

/-- Settles O13: the halves of the written word are the bytes the narrower and shifted accesses find. -/
theorem wordsAreBigEndian : Obligations.WordsAreBigEndian := by
  intro s a v ⟨_, hmax, _⟩ ha
  obtain ⟨t, hw, hh, hl, hframe, hread, -, -, hp, -⟩ := (wordWriteStoresBigEndian s a v).1 ha
  have hsum : a.toNat + 2 ≤ s.params.memBytes := ha
  have hnext := ha.toNat_add_one hmax
  refine ⟨t, highByte v, lowByte v, hw, highByte_toNat v, lowByte_toNat v, ?_, ?_, hread, fun ha1 => ?_,
    fun u hum hup hip => ?_⟩
  · rw [memRead8_inside (by rw [hp]; omega), hh]
  · rw [memRead8_inside (by rw [hp, hnext]; omega), hnext, hl]
  · have hbeyond : t.byteAt (a.toNat + 2) = s.byteAt (a.toNat + 2) :=
      hframe _ fun w hw' => by rw [List.mem_singleton.mp hw']; omega
    rw [memRead16_inside (ha1.of_params hp), State.wordAt, hnext, hl, hbeyond]
  · have hin : WordInside u (u.reg .ip) := by rw [hip]; exact ha.of_params (hup.trans hp)
    have hbyte : u.byteAt = t.byteAt := by funext b; rw [State.byteAt, State.byteAt, hum]
    have hword : u.wordAt a = v := State.wordAt_of_halves (hbyte ▸ hh) (hbyte ▸ hl)
    rw [fetch16_inside hin, hip, hword]

/-- Settles O12: each read inside and outside its bounds; at 0xFFFF the sum `addr + 2` is 65537, above every memory
size. -/
theorem memoryReadsAreBoundsChecked : Obligations.MemoryReadsAreBoundsChecked := by
  refine fun s a => ⟨memRead8_outside, memRead8_inside, fun h => memRead16_outside (not_wordInside_iff.mpr h),
    memRead16_inside, fun hmax ha => memRead16_outside (not_wordInside_iff.mpr ?_)⟩
  have htop : a.toNat = 65535 := by rw [ha]; rfl
  omega

end Sys2Proof.Machine
end

section
/-! The statements of spec/30_encoding.md on operand bytes: selectors, which are reduced modulo 12 (R87), and raw
indices, which are not (R88). Both rest on `decode_get`: under distinct values an opcode byte leaves its row's operands
to be read. -/

namespace Sys2Proof

/-- Under distinct values, decoding an opcode byte is reading the operands of its row from what follows. -/
theorem decode_get {o : OpcodeMap} (ho : o.Injective) (m : Mnemonic) (bs : List Byte) :
    decode o (o.get m :: bs) = readOperands takeByte takeReg takeWord m bs := by
  simp only [decode, OpcodeMap.lookup_get ho]

/-- The register numbered `b mod 12` is the one the selector byte `b` picks. -/
theorem Reg.eq_ofSelector {r : Reg} {b : Byte} (h : r.number = b.toNat % 12) : r = Reg.ofSelector b :=
  Reg.number_injective (h.trans (Reg.number_ofSelector b).symm)

/-- Settles O3: the registers are those the two bytes pick, and reading each row's operands picks exactly them. -/
theorem selectorByteReducedModulo12 : Obligations.SelectorByteReducedModulo12 := by
  refine ⟨fun r => ⟨r.toNat_selector, r.ofSelector_selector⟩, fun o ho h l b c r q rest hr hq => ?_⟩
  obtain rfl := Reg.eq_ofSelector hr
  obtain rfl := Reg.eq_ofSelector hq
  exact ⟨decode_get ho .movLitReg _, decode_get ho .movRegReg _, decode_get ho .movRegMem _,
    decode_get ho .movMemReg _, decode_get ho .pushReg _, decode_get ho .pop _, decode_get ho .calReg _⟩

/-- Settles O4: the decoder hands the two bytes on as they are, and the store is read at the index itself. -/
theorem addOperandsAreRawIndices : Obligations.AddOperandsAreRawIndices :=
  ⟨fun _ ho _ _ _ => decode_get ho .addRegReg _,
    fun _ _ => ⟨fun _ => Machine.readIndex_of_number, Machine.readIndex_outside⟩⟩

end Sys2Proof
end

section
/-! The statements of spec/40_step_and_fetch.md on the fetch primitives (R112 to R114) and on the unrecognised opcode
(R117). -/

namespace Sys2Proof.Machine

/-- Settles O17: each primitive inside and outside its bounds; the register is the one the byte at IP selects. -/
theorem fetchReadsAtIpAndAdvances : Obligations.FetchReadsAtIpAndAdvances := by
  refine fun s => ⟨fun hin => ⟨fetch8_inside hin, _, Reg.number_ofSelector _, fetchReg_inside hin⟩, fun hout => ?_,
    fetch16_inside, fetch16_outside⟩
  have hnot := Nat.not_le.mpr hout
  exact ⟨fetch8_outside hnot, fetchReg_outside hnot⟩

/-- A step request whose step leaves the latch clear answers `completed` (R110). -/
theorem stepRequest_completed {s t : State} (h : step s = .next t) (ht : t.fault = none) :
    stepRequest s = (t, .completed) := by
  simp only [stepRequest, h, ht]

/-- With the latch clear, a step whose opcode byte exists and is no row's value is `execUnrecognised`. -/
theorem step_unrecognised {s : State} (hclear : s.fault = none) (hin : (s.reg .ip).toNat < s.params.memBytes)
    (hop : ∀ m, s.params.opc.get m ≠ s.byteAt (s.reg .ip).toNat) : step s = execUnrecognised s := by
  obtain ⟨b, hfetch⟩ := fetchInstr_unrecognised.mpr ⟨hin, hop⟩
  rw [step_clear hclear, hfetch]

/-- Settles O21: the step is `execUnrecognised`, and the policy picks its branch. Under `ignore` the latch stays clear,
so the request completes. -/
theorem unrecognisedOpcodeFollowsThePolicy : Obligations.UnrecognisedOpcodeFollowsThePolicy := by
  intro s hclear hin hop
  have hstep := step_unrecognised hclear hin hop
  constructor
  · intro hfault
    exact ⟨hstep.trans (execUnrecognised_fault hfault), rfl, rfl⟩
  · intro hignore
    exact stepRequest_completed (hstep.trans (execUnrecognised_ignore hignore)) hclear

end Sys2Proof.Machine
end

section
/-! The swap of spec/44_stack.md (R168). `AfterPush` and `AfterPop` say what one PUSH_REG and one POP of a register
other than IP and SP leave; the swap composes four of them. -/

namespace Sys2Proof.Machine

theorem SameControl.trans {s t u : State} (hst : SameControl s t) (htu : SameControl t u) : SameControl s u :=
  ⟨htu.1.trans hst.1, htu.2.trans hst.2⟩

theorem SameMemExcept.trans {s t u : State} {vs ws : List Word} (hst : SameMemExcept s t vs)
    (htu : SameMemExcept t u ws) : SameMemExcept s u (vs ++ ws) := fun a ha =>
  (htu a fun w hw => ha w (List.mem_append_right vs hw)).trans
    (hst a fun w hw => ha w (List.mem_append_left ws hw))

/-- A write to the next slot down leaves the word of a slot alone, where that slot lies across address 0 too. -/
theorem SameMemExcept.wordAt_above {s t : State} {a : Word} (h : SameMemExcept s t [a - 2#16]) :
    t.wordAt a = s.wordAt a := by
  have hslot : a - 2#16 ∈ pushSlots (a - 2#16) 1 := by simp [pushSlots]
  obtain ⟨h0, h0', h1⟩ := pushSlots_disjoint (by decide) hslot
  refine State.wordAt_congr (h _ fun w hw => ?_) (h _ fun w hw => ?_) <;> rw [List.mem_singleton.mp hw]
  · exact ⟨h0, h0'⟩
  · exact ⟨h1, fun e => h0 (Nat.succ.inj e)⟩

/-- `t` is `s` after a two-byte instruction that pushes `v` and completes (R160, R163). -/
structure AfterPush (s t : State) (v : Word) : Prop where
  word : t.wordAt (s.reg .sp) = v
  sp : t.reg .sp = s.reg .sp - 2#16
  fsz : t.fsz = s.fsz + 2#16
  ip : t.reg .ip = s.reg .ip + 2#16
  regs : SameRegsExcept s t [.ip, .sp]
  control : SameControl s t
  mem : SameMemExcept s t [s.reg .sp]

/-- `t` is `s` after a POP to `r`, neither IP nor SP, that completes (R161, R164). -/
structure AfterPop (s t : State) (r : Reg) : Prop where
  dest : t.reg r = s.wordAt (s.reg .sp + 2#16)
  sp : t.reg .sp = s.reg .sp + 2#16
  fsz : t.fsz = s.fsz - 2#16
  ip : t.reg .ip = s.reg .ip + 2#16
  regs : SameRegsExcept s t [.ip, .sp, r]
  control : SameControl s t
  mem : t.mem = s.mem

theorem execPushReg_inside {s : State} {r : Reg} (hr : r ≠ .ip) (h : WordInside s (s.reg .sp)) :
    ∃ t, exec (.pushReg r) s = .next t ∧ AfterPush s t (s.reg r) := by
  have hsp : (afterFetch .pushReg s).reg .sp = s.reg .sp := afterFetch_reg .pushReg s (by decide)
  obtain ⟨t, hpush, hword, htsp, hfsz, hregs, hcontrol, hmem, -⟩ :=
    push_inside (s := afterFetch .pushReg s) (s.reg r) (by rwa [hsp])
  rw [hsp] at hword htsp hmem
  have hexec : exec (.pushReg r) s = commit s (push (readSel (afterFetch .pushReg s) r) (afterFetch .pushReg s)) := rfl
  rw [readSel_afterFetch, if_neg hr, hpush, commit_ok] at hexec
  refine ⟨t, hexec, hword, htsp, hfsz, (hregs .ip (by decide)).trans (afterFetch_ip .pushReg s), fun q hq => ?_,
    hcontrol, hmem⟩
  obtain ⟨hqip, hqsp⟩ : q ≠ .ip ∧ q ∉ [Reg.sp] := by simpa using hq
  exact (hregs q hqsp).trans (afterFetch_reg .pushReg s hqip)

theorem execPop_inside {s : State} {r : Reg} (hr : r ∉ [Reg.ip, .sp]) (h : WordInside s (s.reg .sp + 2#16)) :
    ∃ t, exec (.pop r) s = .next t ∧ AfterPop s t r := by
  obtain ⟨hrip, hrsp⟩ : r ≠ .ip ∧ r ≠ .sp := by simpa using hr
  have hsp : (afterFetch .pop s).reg .sp = s.reg .sp := afterFetch_reg .pop s (by decide)
  have hip : (afterFetch .pop s).reg .ip = s.reg .ip + 2#16 := afterFetch_ip .pop s
  have hpop := pop_inside (s := afterFetch .pop s) (by rwa [hsp])
  have hexec : exec (.pop r) s = commit s (popInto r (afterFetch .pop s)) := rfl
  simp only [popInto, hpop, bind, Except.bind, pure, Except.pure, commit_ok, hsp] at hexec
  refine ⟨_, hexec, by simp, by simp [hrsp.symm], rfl,
    by simp [hrip.symm, hip, -afterFetch_ip], fun q hq => ?_, ⟨rfl, rfl⟩, rfl⟩
  obtain ⟨hqip, hqsp, hqr⟩ : q ≠ .ip ∧ q ≠ .sp ∧ q ≠ r := by simpa using hq
  simp [hqip, hqsp, hqr]

theorem AfterPop.reg {s t : State} {r q : Reg} (h : AfterPop s t r) (hq : q ∉ [Reg.ip, .sp]) (hne : q ≠ r) :
    t.reg q = s.reg q :=
  h.regs q (by simpa [hne] using hq)

theorem AfterPop.wordAt {s t : State} {r : Reg} (h : AfterPop s t r) : t.wordAt = s.wordAt := by
  funext a
  simp only [State.wordAt, State.byteAt, h.mem]

/-- Settles O40: the first pop finds the word pushed last, `q`'s value; the second finds `p`'s, which the second push,
into the slot below, left alone. -/
theorem swapThroughTheStack : Obligations.SwapThroughTheStack := by
  intro s p q hpq hp hq hin hin'
  have hpip : p ≠ .ip := fun e => hp (e ▸ List.mem_cons_self)
  have hqip : q ≠ .ip := fun e => hq (e ▸ List.mem_cons_self)
  obtain ⟨t1, e1, push1⟩ := execPushReg_inside hpip hin
  obtain ⟨t2, e2, push2⟩ := execPushReg_inside (s := t1) hqip (by
    rw [push1.sp]; exact hin'.of_params push1.control.1)
  have control2 := push1.control.trans push2.control
  have top2 : t2.reg .sp + 2#16 = s.reg .sp - 2#16 := by rw [push2.sp, push1.sp, BitVec.sub_add_cancel]
  obtain ⟨t3, e3, pop3⟩ := execPop_inside (s := t2) hp (by rw [top2]; exact hin'.of_params control2.1)
  have control3 := control2.trans pop3.control
  have top3 : t3.reg .sp + 2#16 = s.reg .sp := by rw [pop3.sp, top2, BitVec.sub_add_cancel]
  obtain ⟨t4, e4, pop4⟩ := execPop_inside (s := t3) hq (by rw [top3]; exact hin.of_params control3.1)
  have word2 : t2.wordAt (s.reg .sp - 2#16) = s.reg q := by
    rw [← push1.sp, push2.word, push1.regs q hq]
  have mem2 : SameMemExcept t1 t2 [s.reg .sp - 2#16] := push1.sp ▸ push2.mem
  refine ⟨t1, t2, t3, t4, e1, e2, e3, e4, ?_, ?_, ?_, ?_, fun r hr => ?_, control3.trans pop4.control, ?_⟩
  · rw [pop4.reg hp hpq, pop3.dest, top2, word2]
  · rw [pop4.dest, top3, pop3.wordAt, mem2.wordAt_above, push1.word]
  · rw [pop4.fsz, pop3.fsz, push2.fsz, push1.fsz]
    simp only [BitVec.add_sub_cancel]
  · rw [pop4.ip, pop3.ip, push2.ip, push1.ip]
    simp only [BitVec.add_assoc]; rfl
  · obtain ⟨hrip, hrp, hrq⟩ : r ≠ .ip ∧ r ≠ p ∧ r ≠ q := by simpa using hr
    by_cases hrsp : r = .sp
    · rw [hrsp, pop4.sp, top3]
    · have hrs : r ∉ [Reg.ip, .sp] := by simp [hrip, hrsp]
      rw [pop4.reg hrs hrq, pop3.reg hrs hrp, push2.regs r hrs, push1.regs r hrs]
  · have hmem : t4.byteAt = t2.byteAt := by
      funext a
      simp only [State.byteAt, pop4.mem, pop3.mem]
    intro a ha
    rw [hmem]
    exact push1.mem.trans mem2 a ha

end Sys2Proof.Machine
end

section
/-! The decoder's statements of spec/30_encoding.md: round trip (O1), length (O2), row selection (O5), totality on
operand bytes (O6) and the worked examples (O7). What holds of `readOperands` for every row is proved once, by
`readOperands_induction`: every row reads its fields one after another and then answers its instruction. -/

namespace Sys2Proof

/-- Settles O1: after the opcode byte each operand field of the row is read back by its own inverse. -/
theorem decodeInvertsEncode : Obligations.DecodeInvertsEncode := by
  intro o ho i rest
  rw [encode, List.cons_append, decode_get ho]
  cases i <;>
    simp [readOperands, encodeOperands, Instr.mnemonic, takeByte, bind, Except.bind, pure, Except.pure]

/-- The widths of a row's operand fields, in memory order (R82, R83). -/
def Mnemonic.widths (m : Mnemonic) : List Nat := m.format.layout.map OperandKind.width

theorem Mnemonic.length_eq (m : Mnemonic) : m.length = 1 + m.widths.sum := rfl

section Readers

variable {σ τ ε δ α β : Type}

/-- One field read, and then the rest of the row. -/
def readThen (read : σ → Except ε (α × σ)) (f : α → σ → Except ε (β × σ)) (s : σ) : Except ε (β × σ) :=
  read s >>= fun p => f p.1 p.2

theorem readThen_ok_iff {read : σ → Except ε (α × σ)} {f : α → σ → Except ε (β × σ)} {s s' : σ} {b : β} :
    readThen read f s = .ok (b, s') ↔ ∃ a u, read s = .ok (a, u) ∧ f a u = .ok (b, s') := by
  simp only [readThen]
  cases read s with
  | error e => simp [bind, Except.bind]
  | ok p => simp [bind, Except.bind, Prod.ext_iff]

theorem readThen_error_iff {read : σ → Except ε (α × σ)} {f : α → σ → Except ε (β × σ)} {s : σ} {e : ε} :
    readThen read f s = .error e ↔ read s = .error e ∨ ∃ a u, read s = .ok (a, u) ∧ f a u = .error e := by
  simp only [readThen]
  cases read s with
  | error e => simp [bind, Except.bind]
  | ok p => simp [bind, Except.bind, Prod.ext_iff]

/-- The induction behind every fact about `readOperands`, over two sources of bytes at once: what holds of a finished
instruction of the row, and of a row whenever it holds of the row without its first field, holds of every row. -/
theorem readOperands_induction
    {byte : σ → Except ε (Byte × σ)} {reg : σ → Except ε (Reg × σ)} {word : σ → Except ε (Word × σ)}
    {byte' : τ → Except δ (Byte × τ)} {reg' : τ → Except δ (Reg × τ)} {word' : τ → Except δ (Word × τ)}
    {C : List Nat → (σ → Except ε (Instr × σ)) → (τ → Except δ (Instr × τ)) → Prop} (m : Mnemonic)
    (done : ∀ i, i.mnemonic = m → C [] (fun s => .ok (i, s)) (fun t => .ok (i, t)))
    (byteThen : ∀ ws f g, (∀ b, C ws (f b) (g b)) → C (1 :: ws) (readThen byte f) (readThen byte' g))
    (regThen : ∀ ws f g, (∀ r, C ws (f r) (g r)) → C (1 :: ws) (readThen reg f) (readThen reg' g))
    (wordThen : ∀ ws f g, (∀ w, C ws (f w) (g w)) → C (2 :: ws) (readThen word f) (readThen word' g)) :
    C m.widths (readOperands byte reg word m) (readOperands byte' reg' word' m) := by
  cases m with
  | movLitReg => exact wordThen _ _ _ fun lit => regThen _ _ _ fun rd => done (.movLitReg lit rd) rfl
  | movRegReg => exact regThen _ _ _ fun rs => regThen _ _ _ fun rd => done (.movRegReg rs rd) rfl
  | movRegMem => exact regThen _ _ _ fun rs => wordThen _ _ _ fun addr => done (.movRegMem rs addr) rfl
  | movMemReg => exact wordThen _ _ _ fun addr => regThen _ _ _ fun rd => done (.movMemReg addr rd) rfl
  | addRegReg => exact byteThen _ _ _ fun i1 => byteThen _ _ _ fun i2 => done (.addRegReg i1 i2) rfl
  | jmpNotEq => exact wordThen _ _ _ fun lit => wordThen _ _ _ fun addr => done (.jmpNotEq lit addr) rfl
  | pushLit => exact wordThen _ _ _ fun lit => done (.pushLit lit) rfl
  | pushReg => exact regThen _ _ _ fun rs => done (.pushReg rs) rfl
  | pop => exact regThen _ _ _ fun rd => done (.pop rd) rfl
  | calLit => exact wordThen _ _ _ fun addr => done (.calLit addr) rfl
  | calReg => exact regThen _ _ _ fun rs => done (.calReg rs) rfl
  | ret => exact done .ret rfl

end Readers

/-- Reading takes exactly `n` bytes off the front, and what follows them does not matter. -/
def Consumes {α : Type} (n : Nat) (read : List Byte → Except DecodeError (α × List Byte)) : Prop :=
  ∀ bs a rest, read bs = .ok (a, rest) →
    ∃ used, bs = used ++ rest ∧ used.length = n ∧ ∀ more, read (used ++ more) = .ok (a, more)

theorem takeByte_consumes : Consumes 1 takeByte := by
  intro bs a rest h
  cases bs with
  | nil => cases h
  | cons b bs => cases h; exact ⟨[a], rfl, rfl, fun _ => rfl⟩

theorem takeReg_consumes : Consumes 1 takeReg := by
  intro bs a rest h
  cases bs with
  | nil => cases h
  | cons b bs => cases h; exact ⟨[b], rfl, rfl, fun _ => rfl⟩

theorem takeWord_consumes : Consumes 2 takeWord := by
  intro bs a rest h
  match bs, h with
  | hi :: lo :: bs, h => cases h; exact ⟨[hi, lo], rfl, rfl, fun _ => rfl⟩

theorem Consumes.readThen {α β : Type} {n k : Nat} {read : List Byte → Except DecodeError (α × List Byte)}
    {f : α → List Byte → Except DecodeError (β × List Byte)} (hread : Consumes n read)
    (hf : ∀ a, Consumes k (f a)) : Consumes (n + k) (readThen read f) := by
  intro bs b rest h
  obtain ⟨a, mid, ha, hb⟩ := readThen_ok_iff.mp h
  obtain ⟨used, rfl, hlen, hused⟩ := hread _ _ _ ha
  obtain ⟨used', rfl, hlen', hused'⟩ := hf a _ _ _ hb
  refine ⟨used ++ used', (List.append_assoc ..).symm, by rw [List.length_append, hlen, hlen'], fun more => ?_⟩
  exact readThen_ok_iff.mpr ⟨a, used' ++ more, by rw [List.append_assoc, hused], hused' more⟩

/-- The operands of a row are as many bytes as its widths sum up to. -/
theorem readOperands_consumes (m : Mnemonic) :
    Consumes m.widths.sum (readOperands takeByte takeReg takeWord m) :=
  readOperands_induction (C := fun ws f _ => Consumes ws.sum f)
    (byte' := takeByte) (reg' := takeReg) (word' := takeWord) m
    (fun _ _ bs _ _ h => by cases h; exact ⟨[], rfl, rfl, fun _ => rfl⟩)
    (fun _ _ _ ih => takeByte_consumes.readThen ih) (fun _ _ _ ih => takeReg_consumes.readThen ih)
    (fun _ _ _ ih => takeWord_consumes.readThen ih)

/-- What a row's operands are read to is an instruction of that row. -/
theorem readOperands_mnemonic {σ ε : Type} {byte : σ → Except ε (Byte × σ)} {reg : σ → Except ε (Reg × σ)}
    {word : σ → Except ε (Word × σ)} {m : Mnemonic} {s s' : σ} {i : Instr}
    (h : readOperands byte reg word m s = .ok (i, s')) : i.mnemonic = m := by
  have step {α : Type} {read : σ → Except ε (α × σ)} {f : α → σ → Except ε (Instr × σ)}
      (ih : ∀ a s i s', f a s = .ok (i, s') → i.mnemonic = m) (s i s') (h : readThen read f s = .ok (i, s')) :
      i.mnemonic = m := by
    obtain ⟨a, u, -, hu⟩ := readThen_ok_iff.mp h
    exact ih a u i s' hu
  exact readOperands_induction (C := fun _ f _ => ∀ s i s', f s = .ok (i, s') → i.mnemonic = m)
    (byte' := byte) (reg' := reg) (word' := word) m (fun i hi _ _ _ h => by cases h; exact hi)
    (fun _ _ _ ih => step ih) (fun _ _ _ ih => step ih) (fun _ _ _ ih => step ih) s i s' h

/-- A decoded instruction: its opcode byte selects its row, and its operands are read from what follows. -/
theorem decode_ok {o : OpcodeMap} {bs rest : List Byte} {i : Instr} (h : decode o bs = .ok (i, rest)) :
    ∃ b ops, bs = b :: ops ∧ o.lookup b = some i.mnemonic ∧
      readOperands takeByte takeReg takeWord i.mnemonic ops = .ok (i, rest) := by
  cases bs with
  | nil => cases h
  | cons b ops =>
    cases hrow : o.lookup b with
    | none => simp [decode, hrow] at h
    | some m =>
      simp only [decode, hrow] at h
      obtain rfl := readOperands_mnemonic h
      exact ⟨b, ops, rfl, hrow, h⟩

/-- Settles O2: the opcode byte, and then the bytes its row's operands consume. -/
theorem decodeConsumesOpcodeLength : Obligations.DecodeConsumesOpcodeLength := by
  intro o bs rest i h
  obtain ⟨b, ops, rfl, hrow, hops⟩ := decode_ok h
  obtain ⟨used, rfl, hlen, hused⟩ := readOperands_consumes _ _ _ _ hops
  refine ⟨b :: used, rfl, ?_, ?_, fun more => ?_⟩
  · rw [List.length_cons, hlen, Instr.length, Mnemonic.length_eq, Nat.add_comm]
  · rw [List.head?_cons, OpcodeMap.get_of_lookup hrow]
  · simp only [List.cons_append, decode, hrow, hused]

/-- Reading operands fails by the end of the bytes and in no other way. -/
theorem readOperands_error_truncated {m : Mnemonic} {bs : List Byte} {e : DecodeError}
    (h : readOperands takeByte takeReg takeWord m bs = .error e) : e = .truncated := by
  have step {α : Type} {read : List Byte → Except DecodeError (α × List Byte)}
      {f : α → List Byte → Except DecodeError (Instr × List Byte)} (hread : ∀ bs e, read bs = .error e → e = .truncated)
      (ih : ∀ a bs e, f a bs = .error e → e = .truncated) (bs e) (h : readThen read f bs = .error e) :
      e = .truncated := by
    rcases readThen_error_iff.mp h with hfirst | ⟨a, u, -, hrest⟩
    · exact hread bs e hfirst
    · exact ih a u e hrest
  refine readOperands_induction (C := fun _ f _ => ∀ bs e, f bs = .error e → e = .truncated)
    (byte' := takeByte) (reg' := takeReg) (word' := takeWord) m (fun _ _ _ _ h => by cases h)
    (fun _ _ _ => step fun bs e h => ?_) (fun _ _ _ => step fun bs e h => ?_)
    (fun _ _ _ => step fun bs e h => ?_) bs e h
  · cases bs <;> cases h; rfl
  · cases bs <;> cases h; rfl
  · match bs, h with
    | [_], h => cases h; rfl
    | [], h => cases h; rfl

/-- Settles O5: an unrecognised byte selects no row, and a selected row fails by truncation alone. -/
theorem opcodeByteSelectsItsRow : Obligations.OpcodeByteSelectsItsRow := by
  refine fun o b bs => ⟨⟨fun h => ?_, fun h => ?_⟩, fun ho m => ⟨OpcodeMap.get_of_lookup, ?_⟩⟩
  · cases hrow : o.lookup b with
    | none => exact OpcodeMap.lookup_eq_none.mp hrow
    | some m =>
      simp only [decode, hrow] at h
      cases readOperands_error_truncated h
  · simp only [decode, OpcodeMap.lookup_eq_none.mpr h]
  · rintro rfl
    exact OpcodeMap.lookup_get ho m

/-- A row's operands can be read from any list that is long enough. -/
theorem readOperands_total (m : Mnemonic) (bs : List Byte) (h : m.widths.sum ≤ bs.length) :
    ∃ i rest, readOperands takeByte takeReg takeWord m bs = .ok (i, rest) := by
  refine readOperands_induction (C := fun ws f _ => ∀ bs, ws.sum ≤ bs.length → ∃ i rest, f bs = .ok (i, rest))
    (byte' := takeByte) (reg' := takeReg) (word' := takeWord) m (fun i _ bs _ => ⟨i, bs, rfl⟩)
    (fun ws f _ ih bs h => ?_) (fun ws f _ ih bs h => ?_) (fun ws f _ ih bs h => ?_) bs h
  all_goals rw [List.sum_cons] at h
  · match bs, h with
    | b :: bs, h => exact ih b bs (by rw [List.length_cons] at h; omega)
    | [], h => rw [List.length_nil] at h; omega
  · match bs, h with
    | b :: bs, h => exact ih (Reg.ofSelector b) bs (by rw [List.length_cons] at h; omega)
    | [], h => rw [List.length_nil] at h; omega
  · match bs, h with
    | hi :: lo :: bs, h => exact ih (bigEndian hi lo) bs (by rw [List.length_cons, List.length_cons] at h; omega)
    | [_], h => rw [List.length_singleton] at h; omega
    | [], h => rw [List.length_nil] at h; omega

theorem Instr.wellFormed_eq_true (i : Instr) : i.wellFormed = true := by cases i <;> rfl

/-- Settles O6: the operands of the row are read from any bytes of the row's length. -/
theorem operandBytesNeverIllegal : Obligations.OperandBytesNeverIllegal := by
  intro o ho m bs hlen
  rw [Mnemonic.length_eq] at hlen
  obtain ⟨i, rest, h⟩ := readOperands_total m bs (by omega)
  exact ⟨i, rest, (decode_get ho m bs).trans h, readOperands_mnemonic h, i.wellFormed_eq_true⟩

/-- The encoding of an instruction is all that the decoder takes of it. -/
theorem decode_encode {o : OpcodeMap} (ho : o.Injective) (i : Instr) : decode o (encode o i) = .ok (i, []) := by
  simpa using decodeInvertsEncode o ho i []

/-- Settles O7: each example is the encoding of its listing, and decoding inverts encoding. -/
theorem workedEncodingsDecode : Obligations.WorkedEncodingsDecode := by
  unfold Obligations.WorkedEncodingsDecode
  intro p hp
  have hbytes : encode OpcodeMap.default p.1 = p.2 := by
    revert p
    decide
  exact ⟨hbytes ▸ decode_encode (by decide) p.1, hbytes⟩

end Sys2Proof
end

section
/-! What each instruction does, one rule per instruction or per shape of instruction, each from the state before the
step: the state it commits when its memory and index accesses lie inside, and the fault taken from that state when one
does not. The result and the fault statements (O27 to O38, O42 to O46) and the rules over all instructions are read off
these rules. -/

namespace Sys2Proof.Machine

/-! ### Registers after the fetches and one write -/

@[simp] theorem State.setReg_setReg_self (s : State) (r : Reg) (v w : Word) :
    (s.setReg r v).setReg r w = s.setReg r w := by
  cases r <;> rfl

/-- The fetches and one register write reach no register but IP and the one written. -/
theorem sameRegsExcept_afterFetch_setReg (m : Mnemonic) (s : State) (r : Reg) (v : Word) :
    SameRegsExcept s ((afterFetch m s).setReg r v) [.ip, r] := by
  intro q hq
  obtain ⟨hip, hr⟩ : q ≠ .ip ∧ q ≠ r := by simpa using hq
  rw [State.reg_setReg_of_ne _ _ hr, afterFetch_reg m s hip]

theorem SameRegsExcept.of_afterFetch {m : Mnemonic} {s t : State} {rs : List Reg}
    (h : SameRegsExcept (afterFetch m s) t rs) : SameRegsExcept s t (.ip :: rs) := by
  intro q hq
  obtain ⟨hip, hrs⟩ : q ≠ .ip ∧ q ∉ rs := by simpa using hq
  rw [h q hrs, afterFetch_reg m s hip]

/-- IP is the address of the next instruction, unless the write was to IP. -/
theorem afterFetch_setReg_ip (m : Mnemonic) (s : State) {r : Reg} (v : Word) (hr : r ≠ .ip) :
    ((afterFetch m s).setReg r v).reg .ip = s.reg .ip + BitVec.ofNat 16 m.length := by
  rw [State.reg_setReg_of_ne _ _ hr.symm, afterFetch_ip]

theorem sameMem_of_mem_eq {s t : State} (h : t.mem = s.mem) : SameMem s t := fun a => by
  rw [State.byteAt, State.byteAt, h]

/-! ### Moves, addition and jump -/

theorem exec_movLitReg (s : State) (lit : Word) (rd : Reg) :
    exec (.movLitReg lit rd) s = .next ((afterFetch .movLitReg s).setReg rd lit) := rfl

theorem exec_movRegReg (s : State) (rs rd : Reg) : exec (.movRegReg rs rd) s =
    .next ((afterFetch .movRegReg s).setReg rd (readSel (afterFetch .movRegReg s) rs)) := rfl

/-- A store inside memory: the word in its two bytes, IP at the next instruction, nothing else. -/
theorem exec_movRegMem_inside {s : State} {addr : Word} (rs : Reg) (h : WordInside s addr) :
    ∃ m, exec (.movRegMem rs addr) s = .next ((afterFetch .movRegMem s).setMem m) ∧
      m.read addr.toNat = highByte (readSel (afterFetch .movRegMem s) rs) ∧
      m.read (addr.toNat + 1) = lowByte (readSel (afterFetch .movRegMem s) rs) ∧
      (∀ b, b ≠ addr.toNat → b ≠ addr.toNat + 1 → m.read b = s.byteAt b) ∧
      (s.mem.wf → m.wf) ∧ (s.mem.within s.params.memBytes → m.within s.params.memBytes) := by
  obtain ⟨m, hwrite, hm⟩ :=
    memWrite16_inside (s := afterFetch .movRegMem s) (v := readSel (afterFetch .movRegMem s) rs) h
  refine ⟨m, ?_, hm⟩
  show commit s (storeAbs _ _ _) = _
  rw [storeAbs_eq, hwrite, commit_ok]

theorem exec_movRegMem_outside {s : State} {addr : Word} (rs : Reg) (h : ¬ WordInside s addr) :
    exec (.movRegMem rs addr) s = .next (takeFault .outOfBounds s) := by
  show commit s (storeAbs _ _ _) = _
  rw [storeAbs_eq, memWrite16_outside (s := afterFetch .movRegMem s) h, commit_error]

theorem exec_movMemReg_inside {s : State} {addr : Word} (rd : Reg) (h : WordInside s addr) :
    exec (.movMemReg addr rd) s = .next ((afterFetch .movMemReg s).setReg rd (s.wordAt addr)) := by
  show commit s (loadAbs _ _ >>= _) = _
  rw [loadAbs_eq, memRead16_inside (s := afterFetch .movMemReg s) h]
  rfl

theorem exec_movMemReg_outside {s : State} {addr : Word} (rd : Reg) (h : ¬ WordInside s addr) :
    exec (.movMemReg addr rd) s = .next (takeFault .outOfBounds s) := by
  show commit s (loadAbs _ _ >>= _) = _
  rw [loadAbs_eq, memRead16_outside (s := afterFetch .movMemReg s) h]
  rfl

/-- Two raw indices: one of them lies outside the register-file store, or each names a register (R88). -/
theorem rawIndices_cases (i1 i2 : Byte) :
    (12 ≤ i1.toNat ∨ 12 ≤ i2.toNat) ∨ ∃ r q : Reg, r.number = i1.toNat ∧ q.number = i2.toNat := by
  by_cases h : 12 ≤ i1.toNat ∨ 12 ≤ i2.toNat
  · exact .inl h
  · refine .inr ⟨Reg.nth i1.toNat, Reg.nth i2.toNat, ?_, ?_⟩ <;> rw [Reg.number_nth] <;> omega

theorem exec_addRegReg_inside (s : State) {i1 i2 : Byte} {r q : Reg} (hr : r.number = i1.toNat)
    (hq : q.number = i2.toNat) : exec (.addRegReg i1 i2) s = .next ((afterFetch .addRegReg s).setReg .acc
      (readSel (afterFetch .addRegReg s) r + readSel (afterFetch .addRegReg s) q)) := by
  show commit s (readIndex _ _ >>= fun _ => readIndex _ _ >>= _) = _
  rw [readIndex_of_number hr, readIndex_of_number hq, ← addWords_eq]
  rfl

theorem exec_addRegReg_outside (s : State) {i1 i2 : Byte} (h : 12 ≤ i1.toNat ∨ 12 ≤ i2.toNat) :
    exec (.addRegReg i1 i2) s = .next (takeFault .outOfBounds s) := by
  show commit s (readIndex _ _ >>= fun _ => readIndex _ _ >>= _) = _
  by_cases h1 : 12 ≤ i1.toNat
  · rw [readIndex_outside h1]
    rfl
  · have hr : (Reg.nth i1.toNat).number = i1.toNat := by rw [Reg.number_nth]; omega
    rw [readIndex_of_number hr, readIndex_outside (h.resolve_left h1)]
    rfl

theorem exec_jmpNotEq (s : State) (lit addr : Word) : exec (.jmpNotEq lit addr) s =
    .next (s.setReg .ip (if lit = s.reg .acc then s.reg .ip + 5#16 else addr)) := by
  have hcond : notEqAcc (afterFetch .jmpNotEq s) lit = true ↔ lit ≠ s.reg .acc := by
    rw [notEqAcc_iff, afterFetch_reg _ s (by decide)]
  show commit s (.ok (if notEqAcc (afterFetch .jmpNotEq s) lit then _ else _)) = _
  by_cases h : lit = s.reg .acc
  · rw [if_neg fun hne => hcond.mp hne h, if_pos h]
    rfl
  · rw [if_pos (hcond.mpr h), if_neg h, commit_ok, jumpTo_eq, afterFetch, State.setReg_setReg_self]

/-! ### Stack instructions -/

/-- A push as an instruction, its word inside memory. -/
theorem commit_push_inside {s : State} (m : Mnemonic) (v : Word) (h : WordInside s (s.reg .sp)) :
    ∃ t, commit s (push v (afterFetch m s)) = .next t ∧ t.wordAt (s.reg .sp) = v ∧
      t.reg .sp = s.reg .sp - 2#16 ∧ t.fsz = s.fsz + 2#16 ∧ t.reg .ip = s.reg .ip + BitVec.ofNat 16 m.length ∧
      SameRegsExcept s t [.ip, .sp] ∧ SameControl s t ∧ SameMemExcept s t [s.reg .sp] ∧
      (s.mem.wf → t.mem.wf) ∧ (s.mem.within s.params.memBytes → t.mem.within t.params.memBytes) := by
  have hsp : (afterFetch m s).reg .sp = s.reg .sp := afterFetch_reg m s (by decide)
  obtain ⟨t, hpush, hword, htsp, hfsz, hregs, hcontrol, hmem, hwf, hwithin⟩ :=
    push_inside (s := afterFetch m s) v (by rwa [hsp])
  rw [hsp] at hword htsp hmem
  exact ⟨t, by rw [hpush, commit_ok], hword, htsp, hfsz, (hregs .ip (by decide)).trans (afterFetch_ip m s),
    hregs.of_afterFetch, hcontrol, hmem, hwf, hwithin⟩

theorem commit_push_outside {s : State} (m : Mnemonic) (v : Word) (h : ¬ WordInside s (s.reg .sp)) :
    commit s (push v (afterFetch m s)) = .next (takeFault .outOfBounds s) := by
  rw [push_outside v (by rwa [afterFetch_reg m s (by decide)]), commit_error]

theorem exec_pop_inside {s : State} (rd : Reg) (h : WordInside s (s.reg .sp + 2#16)) :
    exec (.pop rd) s = .next ((((afterFetch .pop s).setReg .sp (s.reg .sp + 2#16)).setFsz (s.fsz - 2#16)).setReg rd
      (s.wordAt (s.reg .sp + 2#16))) := by
  have hsp : (afterFetch .pop s).reg .sp = s.reg .sp := afterFetch_reg .pop s (by decide)
  show commit s (Machine.pop _ >>= _) = _
  rw [pop_inside (by rwa [hsp]), hsp]
  rfl

theorem exec_pop_outside {s : State} (rd : Reg) (h : ¬ WordInside s (s.reg .sp + 2#16)) :
    exec (.pop rd) s = .next (takeFault .outOfBounds s) := by
  show commit s (Machine.pop _ >>= _) = _
  rw [pop_outside (by rwa [afterFetch_reg .pop s (by decide)])]
  rfl

/-! ### Calls and return -/

/-- What both calls do: the state save, and then the jump to a target known before it. -/
def call (m : Mnemonic) (target : Word) (s : State) : Host.Outcome State Fault Refusal :=
  commit s ((saveState (afterFetch m s)).map fun t => t.setReg .ip target)

theorem exec_calLit (s : State) (addr : Word) : exec (.calLit addr) s = call .calLit addr s := by
  show commit s (saveState _ >>= _) = commit s _
  cases saveState (afterFetch .calLit s) <;> rfl

theorem exec_calReg (s : State) (rs : Reg) :
    exec (.calReg rs) s = call .calReg (readSel (afterFetch .calReg s) rs) s := by
  show commit s (saveState _ >>= _) = commit s _
  cases saveState (afterFetch .calReg s) <;> rfl

theorem call_inside {s : State} (m : Mnemonic) (target : Word) (h : ∀ a ∈ pushSlots (s.reg .sp) 10, WordInside s a) :
    ∃ t, call m target s = .next t ∧ t.reg .ip = target ∧ t.reg .sp = s.reg .sp - 20#16 ∧
      t.reg .fp = s.reg .sp - 20#16 ∧ t.fsz = 0 ∧ SameRegsExcept s t [.ip, .sp, .fp] ∧ SameControl s t ∧
      SameMemExcept s t (pushSlots (s.reg .sp) 10) ∧
      (pushSlots (s.reg .sp) 10).map t.wordAt = frameWords (afterFetch m s) ∧
      (s.mem.wf → t.mem.wf) ∧ (s.mem.within s.params.memBytes → t.mem.within t.params.memBytes) := by
  have hsp : (afterFetch m s).reg .sp = s.reg .sp := afterFetch_reg m s (by decide)
  obtain ⟨t, hsave, htsp, htfp, hfsz, hregs, hcontrol, hmem, hframe, hwf, hwithin⟩ :=
    saveState_inside (s := afterFetch m s) (by rwa [hsp])
  rw [hsp] at htsp htfp hmem hframe
  refine ⟨t.setReg .ip target, by rw [call, hsave]; rfl, by simp, by simpa using htsp, by simpa using htfp, hfsz,
    fun r hr => ?_, hcontrol, hmem, hframe, hwf, hwithin⟩
  have hip : r ≠ .ip := fun e => hr (by rw [e]; exact List.mem_cons_self)
  rw [State.reg_setReg_of_ne _ _ hip]
  exact hregs.of_afterFetch r hr

theorem call_outside {s : State} (m : Mnemonic) (target : Word)
    (h : ∃ a ∈ pushSlots (s.reg .sp) 10, ¬ WordInside s a) : call m target s = .next (takeFault .outOfBounds s) := by
  have hsp : (afterFetch m s).reg .sp = s.reg .sp := afterFetch_reg m s (by decide)
  rw [call, saveState_outside (by rwa [hsp])]
  rfl

/-- A return whose pops all lie inside memory. -/
theorem exec_ret_inside {s : State} (h : ∀ a ∈ popSlots (s.reg .fp) (11 + retCount s), WordInside s a) :
    ∃ t, exec .ret s = .next t ∧ t.reg .sp = s.reg .fp + 22#16 + BitVec.ofNat 16 (2 * retCount s) ∧
      t.reg .fp = s.reg .fp + s.wordAt (s.reg .fp + 2#16) ∧
      restoredRegs.map t.reg = (popSlots (s.reg .fp + 2#16) 9).map s.wordAt ∧
      t.reg .acc = s.reg .acc ∧ t.fsz = 0 ∧ t.mem = s.mem ∧ SameControl s t := by
  have hfp : (afterFetch .ret s).reg .fp = s.reg .fp := afterFetch_reg .ret s (by decide)
  have hacc : (afterFetch .ret s).reg .acc = s.reg .acc := afterFetch_reg .ret s (by decide)
  have hcount : retCount (afterFetch .ret s) = retCount s := by rw [retCount, hfp]; rfl
  obtain ⟨t, hrestore, ht⟩ := restoreState_inside (s := afterFetch .ret s) (by rwa [hfp, hcount])
  rw [hfp, hcount, hacc] at ht
  refine ⟨t, ?_, ht⟩
  show commit s (restoreState _) = _
  rw [hrestore, commit_ok]

theorem exec_ret_outside {s : State} (h : ∃ a ∈ popSlots (s.reg .fp) (11 + retCount s), ¬ WordInside s a) :
    exec .ret s = .next (takeFault .outOfBounds s) := by
  have hfp : (afterFetch .ret s).reg .fp = s.reg .fp := afterFetch_reg .ret s (by decide)
  have hcount : retCount (afterFetch .ret s) = retCount s := by rw [retCount, hfp]; rfl
  show commit s (restoreState _) = _
  rw [restoreState_outside (by rwa [hfp, hcount]), commit_error]

end Sys2Proof.Machine
end

section
/-! The rules over all instructions and all steps. `Committed` says what every instruction that does not fault keeps and
does; `exec_ends` says that every execution ends committed or in OutOfBounds; `StepEnd` says the same of a step. The
safety statements (O22, O24, O25, O48 to O51, O53) and the invariant (O55, O56) are read off these. -/

namespace Sys2Proof.Machine

/-! ### What a committed instruction may do -/

/-- The instruction transfers control: IP need not be the next address (spec/43_jump.md R151). -/
def TransfersControl (i : Instr) (s : State) : Prop :=
  selectedDest i = some .ip ∨ (∃ lit addr, i = .jmpNotEq lit addr ∧ lit ≠ s.reg .acc) ∨
    (∃ addr, i = .calLit addr) ∨ (∃ r, i = .calReg r) ∨ i = .ret

/-- The instruction writes memory (spec/20_memory.md R58). -/
def WritesMemory (i : Instr) : Prop :=
  (∃ r addr, i = .movRegMem r addr) ∨ (∃ lit, i = .pushLit lit) ∨ (∃ r, i = .pushReg r) ∨
    (∃ addr, i = .calLit addr) ∨ (∃ r, i = .calReg r)

/-- The instruction writes ACC (spec/10_state.md R22). -/
def WritesAcc (i : Instr) : Prop := (∃ i1 i2, i = .addRegReg i1 i2) ∨ selectedDest i = some .acc

/-- The frame-size counter after an instruction that found it at `f` (spec/10_state.md R28). -/
def counterAfter (f : Word) : Instr → Word
  | .pushLit _ => f + 2#16
  | .pushReg _ => f + 2#16
  | .pop _ => f - 2#16
  | .calLit _ => 0
  | .calReg _ => 0
  | .ret => 0
  | _ => f

/-- What holds of the state `t` an instruction commits from `s`. -/
structure Committed (i : Instr) (s t : State) : Prop where
  control : SameControl s t
  ip : t.reg .ip = s.reg .ip + BitVec.ofNat 16 i.length ∨ TransfersControl i s
  acc : t.reg .acc = s.reg .acc ∨ WritesAcc i
  fsz : t.fsz = counterAfter s.fsz i
  mem : t.mem = s.mem ∨ WritesMemory i
  wf : s.mem.wf → t.mem.wf
  within : s.mem.within s.params.memBytes → t.mem.within s.params.memBytes

/-- The instructions whose whole effect is one write to their selected register. -/
theorem Committed.of_setReg {i : Instr} {r : Reg} (s : State) (v : Word) (hr : selectedDest i = some r)
    (hfsz : counterAfter s.fsz i = s.fsz) : Committed i s ((afterFetch i.mnemonic s).setReg r v) where
  control := ⟨rfl, rfl⟩
  ip := by
    by_cases hip : r = .ip
    · exact .inr (.inl (hip ▸ hr))
    · exact .inl (afterFetch_setReg_ip _ s v hip)
  acc := by
    by_cases hacc : r = .acc
    · exact .inr (.inr (hacc ▸ hr))
    · refine .inl (sameRegsExcept_afterFetch_setReg _ s r v _ ?_)
      simpa using Ne.symm hacc
  fsz := hfsz.symm
  mem := .inl rfl
  wf := id
  within := id

theorem Committed.of_addRegReg (i1 i2 : Byte) (s : State) (v : Word) :
    Committed (.addRegReg i1 i2) s ((afterFetch .addRegReg s).setReg .acc v) where
  control := ⟨rfl, rfl⟩
  ip := .inl (afterFetch_setReg_ip _ s v (by decide))
  acc := .inr (.inl ⟨i1, i2, rfl⟩)
  fsz := rfl
  mem := .inl rfl
  wf := id
  within := id

theorem Committed.of_jmpNotEq (lit addr : Word) (s : State) : Committed (.jmpNotEq lit addr) s
    (s.setReg .ip (if lit = s.reg .acc then s.reg .ip + 5#16 else addr)) where
  control := ⟨rfl, rfl⟩
  ip := by
    by_cases h : lit = s.reg .acc
    · rw [if_pos h, State.reg_setReg_self]
      exact .inl rfl
    · exact .inr (.inr (.inl ⟨lit, addr, rfl, h⟩))
  acc := .inl (State.reg_setReg_of_ne _ _ (by decide))
  fsz := rfl
  mem := .inl rfl
  wf := id
  within := id

/-! ### How an execution ends -/

/-- An execution ends committed, or in OutOfBounds taken from the state before. -/
def Ends (i : Instr) (s : State) (o : Host.Outcome State Fault Refusal) : Prop :=
  ∃ t, o = .next t ∧ (Committed i s t ∨ t = takeFault .outOfBounds s)

theorem Ends.committed {i : Instr} {s t : State} {o : Host.Outcome State Fault Refusal} (ho : o = .next t)
    (ht : Committed i s t) : Ends i s o := ⟨t, ho, .inl ht⟩

theorem Ends.faulted {i : Instr} {s : State} {o : Host.Outcome State Fault Refusal}
    (ho : o = .next (takeFault .outOfBounds s)) : Ends i s o := ⟨_, ho, .inr rfl⟩

theorem ends_push {i : Instr} (s : State) (v : Word) (hfsz : counterAfter s.fsz i = s.fsz + 2#16)
    (hmem : WritesMemory i) :
    Ends i s (commit s (push v (afterFetch i.mnemonic s))) := by
  by_cases h : WordInside s (s.reg .sp)
  · obtain ⟨t, ht, -, -, htfsz, htip, hregs, hcontrol, -, hwf, hwithin⟩ := commit_push_inside i.mnemonic v h
    exact .committed ht ⟨hcontrol, .inl htip, .inl (hregs _ (by decide)), htfsz.trans hfsz.symm, .inr hmem, hwf,
      fun hw => hcontrol.1 ▸ hwithin hw⟩
  · exact .faulted (commit_push_outside _ v h)

theorem ends_pop (s : State) (rd : Reg) : Ends (.pop rd) s (exec (.pop rd) s) := by
  by_cases h : WordInside s (s.reg .sp + 2#16)
  · refine .committed (exec_pop_inside rd h) ⟨⟨rfl, rfl⟩, ?_, ?_, rfl, .inl rfl, id, id⟩
    · by_cases hip : rd = .ip
      · exact .inr (.inl (hip ▸ rfl))
      · left
        rw [State.reg_setReg_of_ne _ _ (Ne.symm hip)]
        exact afterFetch_setReg_ip .pop s _ (by decide)
    · by_cases hacc : rd = .acc
      · exact .inr (.inr (hacc ▸ rfl))
      · left
        rw [State.reg_setReg_of_ne _ _ (Ne.symm hacc)]
        exact sameRegsExcept_afterFetch_setReg .pop s .sp _ _ (by decide)
  · exact .faulted (exec_pop_outside rd h)

theorem ends_call {i : Instr} (m : Mnemonic) (target : Word) (s : State) (hip : TransfersControl i s)
    (hfsz : counterAfter s.fsz i = 0) (hmem : WritesMemory i) : Ends i s (call m target s) := by
  by_cases h : ∀ a ∈ pushSlots (s.reg .sp) 10, WordInside s a
  · obtain ⟨t, ht, -, -, -, htfsz, hregs, hcontrol, -, -, hwf, hwithin⟩ := call_inside m target h
    exact .committed ht ⟨hcontrol, .inr hip, .inl (hregs _ (by decide)), htfsz.trans hfsz.symm, .inr hmem, hwf,
      fun hw => hcontrol.1 ▸ hwithin hw⟩
  · exact .faulted (call_outside m target (by simpa using h))

theorem ends_ret (s : State) : Ends .ret s (exec .ret s) := by
  by_cases h : ∀ a ∈ popSlots (s.reg .fp) (11 + retCount s), WordInside s a
  · obtain ⟨t, ht, -, -, -, hacc, hfsz, hmem, hcontrol⟩ := exec_ret_inside h
    exact .committed ht ⟨hcontrol, .inr (.inr (.inr (.inr (.inr rfl)))), .inl hacc, hfsz, .inl hmem,
      fun hw => hmem ▸ hw, fun hw => hmem ▸ hw⟩
  · exact .faulted (exec_ret_outside (by simpa using h))

/-- Every execution ends committed or in OutOfBounds, and no instruction is refused. -/
theorem exec_ends (i : Instr) (s : State) : Ends i s (exec i s) := by
  cases i with
  | movLitReg lit rd => exact .committed (exec_movLitReg s lit rd) (.of_setReg s _ rfl rfl)
  | movRegReg rs rd => exact .committed (exec_movRegReg s rs rd) (.of_setReg s _ rfl rfl)
  | movRegMem rs addr =>
    by_cases h : WordInside s addr
    · obtain ⟨m, hm, -, -, -, hwf, hwithin⟩ := exec_movRegMem_inside rs h
      exact .committed hm ⟨⟨rfl, rfl⟩, .inl (afterFetch_ip _ s), .inl (afterFetch_reg _ s (by decide)), rfl,
        .inr (.inl ⟨rs, addr, rfl⟩), hwf, hwithin⟩
    · exact .faulted (exec_movRegMem_outside rs h)
  | movMemReg addr rd =>
    by_cases h : WordInside s addr
    · exact .committed (exec_movMemReg_inside rd h) (.of_setReg s _ rfl rfl)
    · exact .faulted (exec_movMemReg_outside rd h)
  | addRegReg i1 i2 =>
    rcases rawIndices_cases i1 i2 with h | ⟨r, q, hr, hq⟩
    · exact .faulted (exec_addRegReg_outside s h)
    · exact .committed (exec_addRegReg_inside s hr hq) (.of_addRegReg i1 i2 s _)
  | jmpNotEq lit addr => exact .committed (exec_jmpNotEq s lit addr) (.of_jmpNotEq lit addr s)
  | pushLit lit => exact ends_push (i := .pushLit lit) s lit rfl (.inr (.inl ⟨lit, rfl⟩))
  | pushReg rs => exact ends_push (i := .pushReg rs) s _ rfl (.inr (.inr (.inl ⟨rs, rfl⟩)))
  | pop rd => exact ends_pop s rd
  | calLit addr =>
    rw [exec_calLit]
    exact ends_call _ _ s (.inr (.inr (.inl ⟨addr, rfl⟩))) rfl (.inr (.inr (.inr (.inl ⟨addr, rfl⟩))))
  | calReg rs =>
    rw [exec_calReg]
    exact ends_call _ _ s (.inr (.inr (.inr (.inl ⟨rs, rfl⟩)))) rfl (.inr (.inr (.inr (.inr ⟨rs, rfl⟩))))
  | ret => exact ends_ret s

theorem exec_cases {i : Instr} {s t : State} (h : exec i s = .next t) :
    Committed i s t ∨ t = takeFault .outOfBounds s := by
  obtain ⟨u, hu, hcases⟩ := exec_ends i s
  rw [h] at hu
  cases hu
  exact hcases

/-- An execution that leaves the latch clear committed. -/
theorem committed_of_clear {i : Instr} {s t : State} (h : exec i s = .next t) (ht : t.fault = none) :
    Committed i s t := by
  rcases exec_cases h with hc | rfl
  · exact hc
  · cases ht

/-- Settles O25, by how an execution ends. -/
theorem executionCommitsOrTakesOutOfBounds : Obligations.ExecutionCommitsOrTakesOutOfBounds := by
  intro i s
  obtain ⟨t, ht, hc | hfault⟩ := exec_ends i s
  · exact ⟨t, ht, .inl hc.control⟩
  · exact ⟨t, ht, .inr hfault⟩

/-- Settles O48: a committed instruction that does not transfer control ends at the next address. -/
theorem ipLeavesSequenceOnlyByControlTransfer : Obligations.IpLeavesSequenceOnlyByControlTransfer :=
  fun _ _ _ _ h ht hne => (committed_of_clear h ht).ip.resolve_left hne

/-- Settles O49: a fault leaves memory alone, and so does a committed instruction that writes none. -/
theorem onlyStoresPushesAndCallsWriteMemory : Obligations.OnlyStoresPushesAndCallsWriteMemory := by
  intro i s t h hne
  rcases exec_cases h with hc | rfl
  · exact hc.mem.resolve_left hne
  · exact absurd rfl hne

/-- Settles O50: a fault leaves ACC alone, and so does a committed instruction that does not write it. -/
theorem accWrittenOnlyByAddOrSelector : Obligations.AccWrittenOnlyByAddOrSelector := by
  intro i s t h hne
  rcases exec_cases h with hc | rfl
  · exact hc.acc.resolve_left hne
  · exact absurd rfl hne

/-- Settles O51: the counter of a committed instruction, row by row. -/
theorem frameCounterChangesOnlyByStackAndCalls : Obligations.FrameCounterChangesOnlyByStackAndCalls := by
  intro i s t _ h ht
  rw [(committed_of_clear h ht).fsz]
  cases i <;> rfl

/-! ### How a step ends -/

/-- The four ways a step of a machine whose latch is clear ends at a next state. -/
inductive StepEnd (s t : State) : Prop where
  | outOfBounds (ht : t = takeFault .outOfBounds s)
  | illegal (hp : s.params.illegalPolicy = .fault) (hb : ∃ b, fetchInstr s = .ok (.unrecognised b))
    (ht : t = takeFault .illegalInstruction s)
  | ignored (hp : s.params.illegalPolicy = .ignore) (ht : t = s.setReg .ip (s.reg .ip + 1#16))
  | committed (i : Instr) (hf : fetchInstr s = .ok (.instr i)) (hc : Committed i s t)

/-- A step that answers a next state found the latch clear. -/
theorem step_next_clear {s t : State} (h : step s = .next t) : s.fault = none := by
  cases hf : s.fault with
  | none => rfl
  | some e => rw [step_latched hf] at h; cases h

theorem step_cases {s t : State} (h : step s = .next t) : StepEnd s t := by
  rw [step_clear (step_next_clear h)] at h
  match hf : fetchInstr s with
  | .error e =>
    obtain rfl := fetchInstr_error hf
    rw [hf] at h
    cases h
    exact .outOfBounds rfl
  | .ok (.unrecognised b) =>
    rw [hf] at h
    cases hp : s.params.illegalPolicy with
    | fault =>
      cases (execUnrecognised_fault hp).symm.trans h
      exact .illegal hp ⟨b, hf⟩ rfl
    | ignore =>
      cases (execUnrecognised_ignore hp).symm.trans h
      exact .ignored hp rfl
  | .ok (.instr i) =>
    rw [hf] at h
    rcases exec_cases h with hc | ht
    · exact .committed i hf hc
    · exact .outOfBounds ht

/-- A step request whose step takes a fault answers it (R110). -/
theorem stepRequest_fault {s t : State} {e : Fault} (h : step s = .next t) (ht : t.fault = some e) :
    stepRequest s = (t, .fault e) := by
  simp only [stepRequest, h, ht]

/-- Settles O22: of the ways a step ends only the unrecognised opcode under the policy `fault` leaves that cause. -/
theorem illegalInstructionOnlyForUnrecognisedOpcode : Obligations.IllegalInstructionOnlyForUnrecognisedOpcode := by
  refine fun s hclear => ⟨?_, fun ⟨hp, hin, hop⟩ => ?_⟩
  · rintro ⟨t, hstep, ht⟩
    cases step_cases hstep with
    | outOfBounds h => rw [h] at ht; cases ht
    | illegal hp hb => exact ⟨hp, fetchInstr_unrecognised.mp hb⟩
    | ignored hp h => rw [h, State.setReg_fault, hclear] at ht; cases ht
    | committed i hf hc => rw [hc.control.2, hclear] at ht; cases ht
  · exact ⟨_, (step_unrecognised hclear hin hop).trans (execUnrecognised_fault hp), rfl⟩

/-- Settles O24: a step that leaves a cause ended in one of the two faults taken from the state before. -/
theorem faultingStepChangesOnlyTheLatch : Obligations.FaultingStepChangesOnlyTheLatch := by
  intro s t e hclear hstep ht
  have hrequest := stepRequest_fault hstep ht
  cases step_cases hstep with
  | outOfBounds h =>
    subst h
    cases ht
    exact ⟨rfl, rfl, rfl, rfl, rfl, hrequest, .inl ⟨rfl, rfl⟩⟩
  | illegal _ _ h =>
    subst h
    cases ht
    exact ⟨rfl, rfl, rfl, rfl, rfl, hrequest, .inr ⟨rfl, rfl⟩⟩
  | ignored _ h => rw [h, State.setReg_fault, hclear] at ht; cases ht
  | committed i _ hc => rw [hc.control.2, hclear] at ht; cases ht

/-- Settles O53: no end of a step touches the parameters. -/
theorem parametersNeverChange : Obligations.ParametersNeverChange := by
  refine fun s => ⟨fun t hstep => ?_, rfl⟩
  cases step_cases hstep with
  | outOfBounds h => rw [h, takeFault_params]
  | illegal _ _ h => rw [h, takeFault_params]
  | ignored _ h => rw [h, State.setReg_params]
  | committed i _ hc => exact hc.control.1

/-! ### The invariant -/

/-- Settles O55: a fault changes the latch alone, an ignored opcode IP alone, and a committed instruction keeps the
parameters, the latch and the form and bounds of memory. -/
theorem stepKeepsTheInvariant : Obligations.StepKeepsTheInvariant := by
  intro s t hs hstep
  cases step_cases hstep with
  | outOfBounds h => subst h; exact { hs with fault := by simp }
  | illegal _ _ h => subst h; exact { hs with fault := by simp }
  | ignored _ h => subst h; exact { hs with }
  | committed i _ hc =>
    obtain ⟨hparams, hfault⟩ := hc.control
    exact { params := hparams ▸ hs.params, memWf := hc.wf hs.memWf, memWithin := hparams ▸ hc.within hs.memWithin,
            fault := hfault ▸ hs.fault }

/-- Reset satisfies the invariant over any memory that does. -/
theorem stateInv_resetWith {p : Params} {m : Memory} (hp : p.WellFormed) (hwf : m.wf) (hm : m.within p.memBytes) :
    StateInv (State.resetWith p m) :=
  ⟨hp, hwf, hm, nofun⟩

/-- Settles O56: reset lists nothing in memory, and a reset request keeps memory as it is. -/
theorem resetSatisfiesTheInvariant : Obligations.ResetSatisfiesTheInvariant := by
  have hempty (p : Params) (hp : p.WellFormed) : StateInv (State.resetWith p []) :=
    stateInv_resetWith hp Memory.wf_nil nofun
  exact ⟨hempty _ (by decide), hempty, fun s hs => stateInv_resetWith hs.params hs.memWf hs.memWithin⟩

end Sys2Proof.Machine
end

section
/-! The frame-size counter is hidden (spec/10_state.md R29, O52): no fetch, no memory access and no register access
reads it, so two machines that differ in it alone stay so; only a state save writes it to memory, as its last word. -/

namespace Sys2Proof.Machine

/-! ### Fetches do not read the counter -/

/-- A fetch of a machine with another counter is the same fetch, the counter still the other one after it. -/
def IgnoresFsz {α : Type} (f : Word) (read : State → Except Fault (α × State)) : Prop :=
  ∀ s, read (s.setFsz f) = (read s).map fun p => (p.1, p.2.setFsz f)

theorem fetch8_ignoresFsz (f : Word) : IgnoresFsz f fetch8 := by
  intro s
  show memRead8 s (s.reg .ip) >>= _ = (memRead8 s (s.reg .ip) >>= _).map _
  cases memRead8 s (s.reg .ip) <;> rfl

theorem fetch16_ignoresFsz (f : Word) : IgnoresFsz f fetch16 := by
  intro s
  show memRead16 s (s.reg .ip) >>= _ = (memRead16 s (s.reg .ip) >>= _).map _
  cases memRead16 s (s.reg .ip) <;> rfl

theorem fetchReg_ignoresFsz (f : Word) : IgnoresFsz f fetchReg := by
  intro s
  rw [fetchReg, fetch8_ignoresFsz, fetchReg]
  cases fetch8 s <;> rfl

theorem IgnoresFsz.readThen {α β : Type} {f : Word} {read : State → Except Fault (α × State)}
    {k : α → State → Except Fault (β × State)} (hread : IgnoresFsz f read) (hk : ∀ a, IgnoresFsz f (k a)) :
    IgnoresFsz f (readThen read k) := by
  intro s
  rw [Sys2Proof.readThen, hread, Sys2Proof.readThen]
  cases read s with
  | error e => rfl
  | ok p => exact hk p.1 p.2

theorem readOperands_ignoresFsz (f : Word) (m : Mnemonic) :
    IgnoresFsz f (readOperands fetch8 fetchReg fetch16 m) :=
  readOperands_induction (C := fun _ read _ => IgnoresFsz f read) (byte' := fetch8) (reg' := fetchReg)
    (word' := fetch16) m (fun _ _ _ => rfl) (fun _ _ _ ih => (fetch8_ignoresFsz f).readThen ih)
    (fun _ _ _ ih => (fetchReg_ignoresFsz f).readThen ih) (fun _ _ _ ih => (fetch16_ignoresFsz f).readThen ih)

theorem fetchInstr_setFsz (s : State) (f : Word) : fetchInstr (s.setFsz f) = fetchInstr s := by
  rw [fetchInstr, fetch8_ignoresFsz, fetchInstr]
  cases fetch8 s with
  | error e => rfl
  | ok p =>
    obtain ⟨b, u⟩ := p
    simp only [Except.map, bind, Except.bind, State.setFsz_params]
    cases s.params.opc.lookup b with
    | none => rfl
    | some m =>
      simp only [readOperands_ignoresFsz f m u]
      cases readOperands fetch8 fetchReg fetch16 m u <;> rfl

@[simp] theorem State.setFsz_setFsz (s : State) (f g : Word) : (s.setFsz f).setFsz g = s.setFsz g := rfl

/-! ### Stack operations under another counter -/

theorem memWrite16_setFsz (s : State) (f a v : Word) :
    memWrite16 (s.setFsz f) a v = (memWrite16 s a v).map (·.setFsz f) := by
  rw [memWrite16, memWrite16, apply_ite (Except.map _)]
  rfl

theorem push_setFsz (s : State) (f v : Word) : push v (s.setFsz f) = (push v s).map (·.setFsz (f + 2#16)) := by
  simp only [push, State.setFsz_reg, memWrite16_setFsz]
  cases memWrite16 s (s.reg .sp) v <;> rfl

theorem pop_setFsz (s : State) (f : Word) :
    pop (s.setFsz f) = (pop s).map fun p => (p.1, p.2.setFsz (f - 2#16)) := by
  by_cases h : WordInside s (s.reg .sp + 2#16)
  · rw [pop_inside h, pop_inside (s := s.setFsz f) h]
    rfl
  · rw [pop_outside h, pop_outside (s := s.setFsz f) h]
    rfl

theorem popInto_setFsz (s : State) (f : Word) (r : Reg) :
    popInto r (s.setFsz f) = (popInto r s).map (·.setFsz (f - 2#16)) := by
  rw [popInto, pop_setFsz, popInto]
  cases pop s <;> rfl

theorem pushAll_setFsz (vs : List Word) (s : State) (f : Word) :
    ∃ g, pushAll vs (s.setFsz f) = (pushAll vs s).map (·.setFsz g) := by
  induction vs generalizing s f with
  | nil => exact ⟨f, rfl⟩
  | cons v vs ih =>
    rw [pushAll, push_setFsz, pushAll]
    cases push v s with
    | error e => exact ⟨f, rfl⟩
    | ok t => exact ih t _

/-- A state restore overwrites the counter with the frame-size word before it could matter (R184). -/
theorem restoreState_setFsz (s : State) (f : Word) : restoreState (s.setFsz f) = restoreState s := by
  have hpop : pop ((s.setFsz f).setReg .sp (s.reg .fp)) =
      (pop (s.setReg .sp (s.reg .fp))).map fun p => (p.1, p.2.setFsz (f - 2#16)) :=
    pop_setFsz (s.setReg .sp (s.reg .fp)) f
  simp only [restoreState, State.setFsz_reg, hpop]
  cases pop (s.setReg .sp (s.reg .fp)) with
  | error e => rfl
  | ok p => simp only [Except.map, bind, Except.bind, State.setFsz_setFsz]

/-! ### Executions under another counter -/

/-- The second computation ends as the first does, but for the counter. -/
def SameButFsz (c c' : Except Fault State) : Prop := ∃ g, c' = c.map (·.setFsz g)

theorem SameButFsz.refl (c : Except Fault State) : SameButFsz c c := by
  cases c with
  | error e => exact ⟨0, rfl⟩
  | ok t => exact ⟨t.fsz, rfl⟩

theorem SameButFsz.commit {s t : State} {c c' : Except Fault State} (hc : SameButFsz c c') (f : Word)
    (h : commit s c = .next t) : ∃ g, commit (s.setFsz f) c' = .next (t.setFsz g) := by
  obtain ⟨g, rfl⟩ := hc
  cases c with
  | error e => cases h; exact ⟨f, rfl⟩
  | ok u => cases h; exact ⟨g, rfl⟩

/-- No instruction but a call lets the counter be seen. -/
theorem exec_setFsz {i : Instr} {s t : State} (f : Word) (hlit : ∀ addr, i ≠ .calLit addr)
    (hreg : ∀ r, i ≠ .calReg r) (h : exec i s = .next t) : ∃ g, exec i (s.setFsz f) = .next (t.setFsz g) := by
  cases i with
  | movLitReg lit rd =>
    rw [exec_movLitReg] at h ⊢
    cases h
    exact ⟨f, rfl⟩
  | movRegReg rs rd =>
    rw [exec_movRegReg] at h ⊢
    cases h
    exact ⟨f, rfl⟩
  | movRegMem rs addr => exact SameButFsz.commit ⟨f, memWrite16_setFsz (afterFetch .movRegMem s) f addr _⟩ f h
  | movMemReg addr rd =>
    by_cases hin : WordInside s addr
    · rw [exec_movMemReg_inside rd hin] at h
      cases h
      exact ⟨f, exec_movMemReg_inside (s := s.setFsz f) rd hin⟩
    · rw [exec_movMemReg_outside rd hin] at h
      cases h
      exact ⟨f, exec_movMemReg_outside (s := s.setFsz f) rd hin⟩
  | addRegReg i1 i2 =>
    rcases rawIndices_cases i1 i2 with hout | ⟨r, q, hr, hq⟩
    · rw [exec_addRegReg_outside s hout] at h
      cases h
      exact ⟨f, exec_addRegReg_outside (s.setFsz f) hout⟩
    · rw [exec_addRegReg_inside s hr hq] at h
      cases h
      exact ⟨f, exec_addRegReg_inside (s.setFsz f) hr hq⟩
  | jmpNotEq lit addr =>
    rw [exec_jmpNotEq] at h ⊢
    cases h
    exact ⟨f, rfl⟩
  | pushLit lit => exact SameButFsz.commit ⟨_, push_setFsz (afterFetch .pushLit s) f lit⟩ f h
  | pushReg rs => exact SameButFsz.commit ⟨_, push_setFsz (afterFetch .pushReg s) f _⟩ f h
  | pop rd => exact SameButFsz.commit ⟨_, popInto_setFsz (afterFetch .pop s) f rd⟩ f h
  | calLit addr => exact absurd rfl (hlit addr)
  | calReg rs => exact absurd rfl (hreg rs)
  | ret =>
    have hsame : SameButFsz (restoreState (afterFetch .ret s)) (restoreState ((afterFetch .ret s).setFsz f)) := by
      rw [restoreState_setFsz]
      exact .refl _
    exact hsame.commit f h

/-- Two pushes of any two words, from states that differ in the counter alone, differ in the counter and in the slot
pushed to. -/
theorem push_ok_setFsz {s t : State} {v : Word} (w f : Word) (h : push v s = .ok t) :
    t.reg .sp = s.reg .sp - 2#16 ∧ ∃ u, push w (s.setFsz f) = .ok u ∧ u.regs = t.regs ∧ SameControl t u ∧
      SameMemExcept t u [s.reg .sp] := by
  have hin : WordInside s (s.reg .sp) := by
    by_contra hout
    rw [push_outside v hout] at h
    cases h
  obtain ⟨m, hm, -, -, hframe, -⟩ := memWrite16_inside (v := v) hin
  obtain ⟨n, hn, -, -, hframe', -⟩ := memWrite16_inside (s := s.setFsz f) (v := w) hin
  have ht : t = ((s.setMem m).setReg .sp (s.reg .sp - 2#16)).setFsz (s.fsz + 2#16) := by
    rw [push, hm] at h
    cases h
    rfl
  have hu : push w (s.setFsz f) = .ok (((s.setMem n).setReg .sp (s.reg .sp - 2#16)).setFsz (f + 2#16)) := by
    rw [push, State.setFsz_reg, hn]
    rfl
  subst ht
  refine ⟨State.reg_setReg_self (s.setMem m) .sp _, _, hu, rfl, ⟨rfl, rfl⟩, fun a ha => ?_⟩
  obtain ⟨h0, h1⟩ := ha _ List.mem_cons_self
  exact (hframe' a h0 h1).trans (hframe a h0 h1).symm

/-- Two state saves from states that differ in the counter alone differ in the frame-size word alone, which is the last
one pushed (R181). -/
theorem saveState_ok_setFsz {s t : State} (f : Word) (h : saveState s = .ok t) :
    ∃ u, saveState (s.setFsz f) = .ok u ∧ u.regs = t.regs ∧ u.fsz = t.fsz ∧ SameControl t u ∧
      SameMemExcept t u [t.reg .fp + 2#16] := by
  obtain ⟨g, hg⟩ := pushAll_setFsz (savedRegs.map s.reg ++ [s.reg .ip]) s f
  cases ha : pushAll (savedRegs.map s.reg ++ [s.reg .ip]) s with
  | error e => simp only [saveState, ha, bind, Except.bind] at h; cases h
  | ok a =>
    cases hb : push (a.fsz + 2#16) a with
    | error e => simp only [saveState, ha, hb, bind, Except.bind] at h; cases h
    | ok b =>
      simp only [saveState, ha, hb, bind, Except.bind, pure, Except.pure] at h
      cases h
      obtain ⟨hsp, u, hu, hregs, hcontrol, hmem⟩ := push_ok_setFsz (g + 2#16) g hb
      rw [ha] at hg
      have husp : u.reg .sp = b.reg .sp := congrArg (·.get .sp) hregs
      have hslot : ((b.setReg .fp (b.reg .sp)).setFsz 0).reg .fp + 2#16 = a.reg .sp := by
        rw [State.setFsz_reg, State.reg_setReg_self, hsp, BitVec.sub_add_cancel]
      refine ⟨(u.setReg .fp (u.reg .sp)).setFsz 0, ?_, ?_, rfl, hcontrol, hslot ▸ hmem⟩
      · simp only [saveState, State.setFsz_reg, hg, Except.map, bind, Except.bind, State.setFsz_fsz, hu]
        rfl
      · show u.regs.set .fp _ = b.regs.set .fp _
        rw [hregs, husp]

/-- The two calls under another counter, when they do not fault. -/
theorem call_setFsz {m : Mnemonic} {target : Word} {s t : State} (f : Word) (h : call m target s = .next t)
    (ht : t.fault = none) :
    ∃ u, call m target (s.setFsz f) = .next u ∧ u.regs = t.regs ∧ u.fsz = t.fsz ∧ SameControl t u ∧
      SameMemExcept t u [t.reg .fp + 2#16] := by
  cases hsave : saveState (afterFetch m s) with
  | error e => rw [call, hsave] at h; cases h; cases ht
  | ok a =>
    rw [call, hsave] at h
    cases h
    obtain ⟨u, hu, hregs, hfsz, hcontrol, hmem⟩ := saveState_ok_setFsz f hsave
    have hu' : saveState (afterFetch m (s.setFsz f)) = .ok u := hu
    refine ⟨u.setReg .ip target, by rw [call, hu']; rfl, ?_, hfsz, hcontrol, hmem⟩
    exact congrArg (·.set .ip target) hregs

/-- Settles O52: the fetches are the same, and so is the end of the step but for the counter, unless the instruction
is a call, whose frame-size word is the one place the counter goes. -/
theorem frameCounterHiddenExceptThroughCalls : Obligations.FrameCounterHiddenExceptThroughCalls := by
  intro s t f hstep
  have hclear := step_next_clear hstep
  have hstep' := step_clear (s := s.setFsz f) hclear
  rw [fetchInstr_setFsz] at hstep'
  rw [step_clear hclear] at hstep
  rw [hstep']
  refine ⟨fun hlit hreg => ?_, fun hcall ht => ?_⟩
  · match hf : fetchInstr s with
    | .error e => rw [hf] at hstep; cases hstep; exact ⟨f, rfl⟩
    | .ok (.unrecognised b) =>
      rw [hf] at hstep
      cases hp : s.params.illegalPolicy with
      | fault =>
        cases (execUnrecognised_fault hp).symm.trans hstep
        exact ⟨f, execUnrecognised_fault hp⟩
      | ignore =>
        cases (execUnrecognised_ignore hp).symm.trans hstep
        exact ⟨f, execUnrecognised_ignore hp⟩
    | .ok (.instr i) =>
      rw [hf] at hstep
      exact exec_setFsz f (fun addr e => hlit addr (e ▸ hf)) (fun r e => hreg r (e ▸ hf)) hstep
  · rcases hcall with ⟨addr, hf⟩ | ⟨r, hf⟩
    · simp only [hf, exec_calLit] at hstep ⊢
      exact call_setFsz f hstep ht
    · simp only [hf, exec_calReg] at hstep ⊢
      exact call_setFsz f hstep ht

end Sys2Proof.Machine
end

section
/-! The result and the fault statement of each instruction (spec/41_moves.md to spec/45_call_return.md), read off the
rule of that instruction. -/

namespace Sys2Proof.Machine

/-! ### Moves, addition and jump -/

/-- Settles O27. -/
theorem movLitRegResult : Obligations.MovLitRegResult := fun s lit rd =>
  ⟨_, exec_movLitReg s lit rd, State.reg_setReg_self _ rd lit, afterFetch_setReg_ip .movLitReg s lit,
    sameRegsExcept_afterFetch_setReg .movLitReg s rd lit, rfl, ⟨rfl, rfl⟩, fun _ => rfl⟩

/-- Settles O28: the source is read after the fetches, so IP reads as the next address. -/
theorem movRegRegResult : Obligations.MovRegRegResult := fun s rs rd =>
  ⟨_, exec_movRegReg s rs rd, (State.reg_setReg_self _ rd _).trans (readSel_afterFetch .movRegReg s rs),
    afterFetch_setReg_ip .movRegReg s _, sameRegsExcept_afterFetch_setReg .movRegReg s rd _, rfl, ⟨rfl, rfl⟩,
    fun _ => rfl⟩

/-- Settles O29: the two bytes of the word are the halves of the register. -/
theorem movRegMemResult : Obligations.MovRegMemResult := by
  intro s rs addr h
  obtain ⟨m, hm, hhigh, hlow, hframe, -⟩ := exec_movRegMem_inside rs h
  refine ⟨_, hm, ?_, afterFetch_ip .movRegMem s, fun r hr => ?_, rfl, ⟨rfl, rfl⟩, fun a ha => ?_⟩
  · rw [State.wordAt_of_halves (t := (afterFetch .movRegMem s).setMem m) hhigh hlow, readSel_afterFetch]
    rfl
  · exact afterFetch_reg .movRegMem s (by simpa using hr)
  · obtain ⟨h0, h1⟩ := ha addr List.mem_cons_self
    exact hframe a h0 h1

/-- Settles O30. -/
theorem movMemRegResult : Obligations.MovMemRegResult := fun s rd _ h =>
  ⟨_, exec_movMemReg_inside rd h, State.reg_setReg_self _ rd _, afterFetch_setReg_ip .movMemReg s _,
    sameRegsExcept_afterFetch_setReg .movMemReg s rd _, rfl, ⟨rfl, rfl⟩, fun _ => rfl⟩

/-- Settles O31. -/
theorem moveOutsideMemoryTakesFault : Obligations.MoveOutsideMemoryTakesFault := fun _ r _ h =>
  ⟨exec_movRegMem_outside r h, exec_movMemReg_outside r h⟩

/-- Settles O32: both sources are read after the fetches and before ACC is written; the sum of words is modulo 2^16. -/
theorem addRegRegResult : Obligations.AddRegRegResult := by
  intro s i1 i2 r q hr hq
  refine ⟨_, exec_addRegReg_inside s hr hq, ?_, afterFetch_setReg_ip .addRegReg s _ (by decide),
    sameRegsExcept_afterFetch_setReg .addRegReg s .acc _, rfl, ⟨rfl, rfl⟩, fun _ => rfl⟩
  rw [State.reg_setReg_self, BitVec.toNat_add, readSel_afterFetch, readSel_afterFetch]
  rfl

/-- Settles O33. -/
theorem addIndexOutsideStoreTakesFault : Obligations.AddIndexOutsideStoreTakesFault := fun s _ _ h =>
  exec_addRegReg_outside s h

/-- Settles O34. -/
theorem jmpNotEqResult : Obligations.JmpNotEqResult := fun s lit addr =>
  ⟨_, exec_jmpNotEq s lit addr, State.reg_setReg_self s .ip _,
    fun _ hr => State.reg_setReg_of_ne s _ (by simpa using hr), rfl, ⟨rfl, rfl⟩, fun _ => rfl⟩

/-! ### Stack -/

/-- Settles O35. -/
theorem pushLitResult : Obligations.PushLitResult := by
  intro s lit h
  obtain ⟨t, ht, hword, hsp, hfsz, hip, hregs, hcontrol, hmem, -⟩ := commit_push_inside .pushLit lit h
  exact ⟨t, ht, hword, hsp, hfsz, hip, hregs, hcontrol, hmem⟩

/-- Settles O36: the value is read after the fetches and before the push. -/
theorem pushRegResult : Obligations.PushRegResult := by
  intro s rs h
  obtain ⟨t, ht, hword, hsp, hfsz, hip, hregs, hcontrol, hmem, -⟩ :=
    commit_push_inside .pushReg (readSel (afterFetch .pushReg s) rs) h
  exact ⟨t, ht, hword.trans (readSel_afterFetch .pushReg s rs), hsp, hfsz, hip, hregs, hcontrol, hmem⟩

/-- Settles O37: the destination is written after the increment of SP, so it wins where it is SP. -/
theorem popResult : Obligations.PopResult := by
  intro s rd h
  refine ⟨_, exec_pop_inside rd h, State.reg_setReg_self _ rd _, fun hsp => ?_, fun hip => ?_, rfl, fun r hr => ?_,
    ⟨rfl, rfl⟩, fun _ => rfl⟩
  · rw [State.reg_setReg_of_ne _ _ hsp.symm, State.setFsz_reg, State.reg_setReg_self]
  · rw [State.reg_setReg_of_ne _ _ hip.symm]
    exact afterFetch_setReg_ip .pop s _ (by decide)
  · obtain ⟨hip, hsp, hrd⟩ : r ≠ .ip ∧ r ≠ .sp ∧ r ≠ rd := by simpa using hr
    rw [State.reg_setReg_of_ne _ _ hrd]
    exact sameRegsExcept_afterFetch_setReg .pop s .sp _ r (by simp [hip, hsp])

/-- Settles O38. -/
theorem stackAccessOutsideMemoryTakesFault : Obligations.StackAccessOutsideMemoryTakesFault := fun _ =>
  ⟨fun h => ⟨fun lit => commit_push_outside .pushLit lit h, fun _ => commit_push_outside .pushReg _ h⟩,
    fun h rd => exec_pop_outside rd h⟩

/-- Equal reads of all twelve registers are equal register files. -/
theorem RegFile.ext_get {f g : RegFile} (h : ∀ r, f.get r = g.get r) : f = g := by
  cases f
  cases g
  simp only [RegFile.mk.injEq]
  exact ⟨h .ip, h .acc, h .r1, h .r2, h .r3, h .r4, h .r5, h .r6, h .r7, h .r8, h .sp, h .fp⟩

/-- Settles O39: the pop reads the slot just pushed to, and SP and the counter go back by what they went. -/
theorem pushThenPopRoundTrip : Obligations.PushThenPopRoundTrip := by
  intro s v h
  obtain ⟨t, ht, hword, hsp, hfsz, hregs, hcontrol, -⟩ := push_inside v h
  have htop : t.reg .sp + 2#16 = s.reg .sp := by rw [hsp, BitVec.sub_add_cancel]
  have hpop := pop_inside (s := t) (by rw [htop]; exact h.of_params hcontrol.1)
  rw [htop, hword] at hpop
  refine ⟨t, _, ht, hpop, RegFile.ext_get fun r => ?_, ?_, hword⟩
  · show ((t.setReg .sp (s.reg .sp)).setFsz _).reg r = s.reg r
    by_cases hr : r = .sp
    · rw [hr, State.setFsz_reg, State.reg_setReg_self]
    · rw [State.setFsz_reg, State.reg_setReg_of_ne _ _ hr, hregs r (by simpa using hr)]
  · rw [State.setFsz_fsz, hfsz, BitVec.add_sub_cancel]

/-- A push that does not fit into memory (R167). -/
theorem push_at_end {s : State} (v : Word) (h : s.params.memBytes - 1 ≤ (s.reg .sp).toNat) :
    push v s = .error .outOfBounds :=
  push_outside v (not_wordInside_iff.mpr (by omega))

/-- Settles O41: each end of the stack is a push or a pop at one address, inside memory or not by its size. -/
theorem stackPointerWrapsAtTheEnds : Obligations.StackPointerWrapsAtTheEnds := by
  refine ⟨fun s v w ⟨hmin, hmax, _⟩ hsp => ?_, fun s v hmin hsp => ?_, fun s v => push_at_end v,
    fun p m ⟨hmin, hmax, _⟩ => ⟨fun hsize => ?_, fun hsize => ?_⟩⟩
  · obtain ⟨t, ht, hword, htsp, -, -, hcontrol, -⟩ := push_inside (s := s) v (by rw [hsp]; exact hmin)
    rw [hsp] at hword htsp
    refine ⟨t, ht, hword, htsp, fun hsize => ?_, fun hsize => push_at_end w ?_⟩
    · obtain ⟨u, hu, hword', -⟩ := push_inside (s := t) w (by
        rw [htsp, WordInside, hcontrol.1, hsize]
        decide)
      rw [htsp] at hword'
      exact ⟨u, hu, hword'⟩
    · have htop : (t.reg .sp).toNat = 65534 := by rw [htsp]; rfl
      rw [hcontrol.1]
      omega
  · obtain ⟨t, ht, hword, htsp, -⟩ := push_inside (s := s) v (by rw [hsp]; exact hmin)
    rw [hsp] at hword htsp
    refine ⟨t, ht, ?_, ?_, htsp⟩
    · rw [← hword]
      exact (highByte_bigEndian _ _).symm
    · rw [← hword]
      exact (lowByte_bigEndian _ _).symm
  · refine pop_outside (not_wordInside_iff.mpr ?_)
    show p.memBytes < (BitVec.ofNat 16 (p.memBytes - 2) + 2#16).toNat + 2
    rw [BitVec.toNat_add, BitVec.toNat_ofNat, BitVec.toNat_ofNat]
    omega
  · have htop : (State.resetWith p m).reg .sp + 2#16 = 0 := by
      show BitVec.ofNat 16 (p.memBytes - 2) + 2#16 = 0
      rw [hsize]
      rfl
    have hpop := pop_inside (s := State.resetWith p m) (by rw [htop]; exact hmin)
    rw [htop] at hpop
    exact ⟨_, hpop, State.reg_setReg_self _ .sp _⟩

/-! ### Call and return -/

/-- The slots `n` pushes write are those `n` pops read from where the pushes leave SP, the last pushed first. -/
theorem pushSlots_eq_reverse (sp : Word) (n : Nat) :
    pushSlots sp n = (popSlots (sp - BitVec.ofNat 16 (2 * n)) n).reverse := by
  refine List.ext_getElem (by simp [pushSlots, popSlots]) fun k hk _ => ?_
  have hkn : k < n := by simpa [pushSlots] using hk
  have hcancel : 2 * n = 2 * k + (2 * (n - 1 - k) + 2) := by omega
  simp only [pushSlots, popSlots, List.getElem_reverse, List.getElem_map, List.getElem_range, List.length_map,
    List.length_range]
  rw [hcancel, BitVec.ofNat_add, ← BitVec.sub_sub, BitVec.sub_add_cancel]

/-- The ten words a call leaves from the frame base up, in the order a return pops them (R184, R186). -/
def savedFrame (m : Mnemonic) (s : State) : List Word :=
  (s.fsz + 20#16) :: (s.reg .ip + BitVec.ofNat 16 m.length) :: savedRegs.reverse.map s.reg

theorem reverse_frameWords_afterFetch (m : Mnemonic) (s : State) :
    (frameWords (afterFetch m s)).reverse = savedFrame m s := by
  have hsaved : savedRegs.map (afterFetch m s).reg = savedRegs.map s.reg :=
    List.map_congr_left fun r hr => afterFetch_reg m s (by rintro rfl; revert hr; decide)
  rw [frameWords, hsaved, afterFetch_ip, afterFetch_fsz, List.reverse_append, ← List.map_reverse]
  rfl

/-- What a call whose ten words fit leaves: control at the target, and the frame in memory from its base up. -/
structure AfterCall (m : Mnemonic) (target : Word) (s t : State) : Prop where
  ip : t.reg .ip = target
  sp : t.reg .sp = s.reg .sp - 20#16
  fp : t.reg .fp = s.reg .sp - 20#16
  fsz : t.fsz = 0
  frame : (popSlots (t.reg .fp) 10).map t.wordAt = savedFrame m s
  regs : SameRegsExcept s t [.ip, .sp, .fp]
  control : SameControl s t
  mem : SameMemExcept s t (pushSlots (s.reg .sp) 10)

theorem call_leaves {s : State} (m : Mnemonic) (target : Word) (h : ∀ a ∈ pushSlots (s.reg .sp) 10, WordInside s a) :
    ∃ t, call m target s = .next t ∧ AfterCall m target s t := by
  obtain ⟨t, ht, hip, hsp, hfp, hfsz, hregs, hcontrol, hmem, hframe, -⟩ := call_inside m target h
  refine ⟨t, ht, hip, hsp, hfp, hfsz, ?_, hregs, hcontrol, hmem⟩
  rw [hfp, ← reverse_frameWords_afterFetch, ← hframe, pushSlots_eq_reverse, List.map_reverse, List.reverse_reverse]

/-- The ten frame words one by one, at their offsets from FP (R186). -/
theorem AfterCall.words {m : Mnemonic} {target : Word} {s t : State} (h : AfterCall m target s t) :
    t.wordAt (t.reg .fp + 2#16) = s.fsz + 20#16 ∧
      t.wordAt (t.reg .fp + 4#16) = s.reg .ip + BitVec.ofNat 16 m.length ∧
      t.wordAt (t.reg .fp + 6#16) = s.reg .r8 ∧ t.wordAt (t.reg .fp + 8#16) = s.reg .r7 ∧
      t.wordAt (t.reg .fp + 10#16) = s.reg .r6 ∧ t.wordAt (t.reg .fp + 12#16) = s.reg .r5 ∧
      t.wordAt (t.reg .fp + 14#16) = s.reg .r4 ∧ t.wordAt (t.reg .fp + 16#16) = s.reg .r3 ∧
      t.wordAt (t.reg .fp + 18#16) = s.reg .r2 ∧ t.wordAt (t.reg .fp + 20#16) = s.reg .r1 := by
  simpa [popSlots, List.range_succ, savedFrame, savedRegs] using h.frame

/-- Settles O42. -/
theorem calLitResult : Obligations.CalLitResult := by
  intro s addr h
  obtain ⟨t, ht, hcall⟩ := call_leaves .calLit addr h
  obtain ⟨w2, w4, w6, w8, w10, w12, w14, w16, w18, w20⟩ := hcall.words
  exact ⟨t, (exec_calLit s addr).trans ht, hcall.ip, hcall.sp, hcall.fp.trans hcall.sp.symm, hcall.fsz, w2, w4, w6, w8,
    w10, w12, w14, w16, w18, w20, hcall.regs, hcall.control, hcall.mem⟩

/-- Settles O43: the target is read after the fetches and before the state save. -/
theorem calRegResult : Obligations.CalRegResult := by
  intro s rs h
  obtain ⟨t, ht, hcall⟩ := call_leaves .calReg (readSel (afterFetch .calReg s) rs) h
  obtain ⟨w2, w4, w6, w8, w10, w12, w14, w16, w18, w20⟩ := hcall.words
  exact ⟨t, (exec_calReg s rs).trans ht, hcall.ip.trans (readSel_afterFetch .calReg s rs), hcall.sp,
    hcall.fp.trans hcall.sp.symm, hcall.fsz, w2, w4, w6, w8, w10, w12, w14, w16, w18, w20, hcall.regs, hcall.control,
    hcall.mem⟩

/-- Settles O44. -/
theorem callOutsideMemoryTakesFault : Obligations.CallOutsideMemoryTakesFault := fun s h =>
  ⟨fun addr => (exec_calLit s addr).trans (call_outside .calLit addr h),
    fun rs => (exec_calReg s rs).trans (call_outside .calReg _ h)⟩

/-- Settles O45: the nine registers are the nine words after the frame-size word. -/
theorem retResult : Obligations.RetResult := by
  intro s h
  obtain ⟨t, ht, hsp, hfp, hregs, hacc, hfsz, hmem, hcontrol⟩ := exec_ret_inside h
  have hnine : t.reg .ip = s.wordAt (s.reg .fp + 4#16) ∧
      t.reg .r8 = s.wordAt (s.reg .fp + 6#16) ∧ t.reg .r7 = s.wordAt (s.reg .fp + 8#16) ∧
      t.reg .r6 = s.wordAt (s.reg .fp + 10#16) ∧ t.reg .r5 = s.wordAt (s.reg .fp + 12#16) ∧
      t.reg .r4 = s.wordAt (s.reg .fp + 14#16) ∧ t.reg .r3 = s.wordAt (s.reg .fp + 16#16) ∧
      t.reg .r2 = s.wordAt (s.reg .fp + 18#16) ∧ t.reg .r1 = s.wordAt (s.reg .fp + 20#16) := by
    simpa [popSlots, List.range_succ, restoredRegs, savedRegs, BitVec.add_assoc] using hregs
  obtain ⟨hip, h8, h7, h6, h5, h4, h3, h2, h1⟩ := hnine
  exact ⟨t, ht, hip, h8, h7, h6, h5, h4, h3, h2, h1, hsp, hfp, hacc, hfsz, hcontrol, sameMem_of_mem_eq hmem⟩

/-- Settles O46. -/
theorem retOutsideMemoryTakesFault : Obligations.RetOutsideMemoryTakesFault := fun _ => exec_ret_outside

/-- The word above the slots of a run of pushes keeps its value. -/
theorem SameMemExcept.wordAt_above_slots {s t : State} {sp : Word} {n : Nat} (hn : n < 32768)
    (h : SameMemExcept s t (pushSlots sp n)) : t.wordAt (sp + 2#16) = s.wordAt (sp + 2#16) := by
  have apart (w) (hw : w ∈ pushSlots sp n) := pushSlots_disjoint (sp := sp + 2#16) hn
    (by rwa [BitVec.add_sub_cancel])
  refine State.wordAt_congr (h _ fun w hw => ?_) (h _ fun w hw => ?_)
  · exact ⟨(apart w hw).1, (apart w hw).2.1⟩
  · exact ⟨(apart w hw).2.2, fun e => (apart w hw).1 (Nat.succ.inj e)⟩

theorem AfterCall.of_exec {i : Instr} {s t : State} (hi : (∃ addr, i = .calLit addr) ∨ (∃ r, i = .calReg r))
    (h : ∀ a ∈ pushSlots (s.reg .sp) 10, WordInside s a) (ht : exec i s = .next t) :
    ∃ target, AfterCall i.mnemonic target s t := by
  rcases hi with ⟨addr, rfl⟩ | ⟨rs, rfl⟩
  · obtain ⟨t', ht', hcall⟩ := call_leaves .calLit addr h
    rw [exec_calLit, ht'] at ht
    cases ht
    exact ⟨addr, hcall⟩
  · obtain ⟨t', ht', hcall⟩ := call_leaves .calReg (readSel (afterFetch .calReg s) rs) h
    rw [exec_calReg, ht'] at ht
    cases ht
    exact ⟨_, hcall⟩

/-- The eleventh slot of a return's pops is the one above the call's ten: that of the argument count. -/
theorem popSlots_eleven (sp : Word) :
    popSlots (sp - 20#16) 11 = popSlots (sp - 20#16) 10 ++ [sp + 2#16] := by
  rw [popSlots_append (sp - 20#16) 10 1]
  simp [popSlots]

/-- Settles O47: the eleven frame words the callee left alone hold what the call saved, and the count above them, which
no push of the call reaches, is the one at the call. -/
theorem callThenReturnRestoresTheCaller : Obligations.CallThenReturnRestoresTheCaller := by
  intro s t u i hi hslots hcountIn hargs hexec hparams hfp hkept
  obtain ⟨target, hcall⟩ := AfterCall.of_exec hi hslots hexec
  have hubase : u.reg .fp = s.reg .sp - 20#16 := hfp.trans hcall.fp
  have htop : s.reg .sp - 20#16 + 22#16 = s.reg .sp + 2#16 := by
    rw [show (22#16 : Word) = 20#16 + 2#16 from rfl, ← BitVec.add_assoc, BitVec.sub_add_cancel]
  rw [hcall.fp, popSlots_eleven] at hkept
  have hcount : u.wordAt (s.reg .sp + 2#16) = s.wordAt (s.reg .sp + 2#16) := by
    rw [hkept _ (by simp), hcall.mem.wordAt_above_slots (by decide)]
  have hn : retCount u = (s.wordAt (s.reg .sp + 2#16)).toNat := by rw [retCount, hubase, htop, hcount]
  have hinside : ∀ a ∈ popSlots (u.reg .fp) (11 + retCount u), WordInside u a := by
    intro a ha
    refine WordInside.of_params (s := s) ?_ (hparams.trans hcall.control.1)
    rw [hubase, hn, popSlots_append, popSlots_eleven, List.mem_append, List.mem_append, List.mem_singleton] at ha
    rcases ha with (hframe | rfl) | harg
    · exact hslots a (by rw [pushSlots_eq_reverse]; exact List.mem_reverse.mpr hframe)
    · exact hcountIn
    · exact hargs a (htop ▸ harg)
  have hframe : (popSlots (s.reg .sp - 20#16) 10).map u.wordAt = savedFrame i.mnemonic s := by
    rw [← hcall.frame, hcall.fp]
    exact List.map_congr_left fun a ha => hkept a (List.mem_append_left _ ha)
  rw [popSlots_succ, List.map_cons, savedFrame, List.cons.injEq] at hframe
  obtain ⟨hsize, hsaved⟩ := hframe
  obtain ⟨v, hv, hvsp, hvfp, hvregs, hvacc, hvfsz, hvmem, hvcontrol⟩ := exec_ret_inside hinside
  rw [hubase, hsaved, restoredRegs, List.map_cons, List.cons.injEq] at hvregs
  obtain ⟨hvip, hvsaved⟩ := hvregs
  refine ⟨v, hv, hvip, fun r hr => ?_, ?_, ?_, hvfsz, hvacc, sameMem_of_mem_eq hvmem, hvcontrol⟩
  · exact List.map_inj_left.mp hvsaved r (List.mem_reverse.mpr hr)
  · rw [hvsp, hubase, htop, hn]
  · rw [hvfp, hubase, hsize, BitVec.add_comm s.fsz, ← BitVec.add_assoc, BitVec.sub_add_cancel]

/-! ### A store and the fetches after it -/

/-- Settles O54: the store left the two halves in memory, and the fetches at the address read them. -/
theorem storeIsSeenByLaterFetches : Obligations.StoreIsSeenByLaterFetches := by
  intro s t u r addr ⟨_, hmax, _⟩ _ hexec ht hmem hparams hip
  have hin : WordInside s addr := by
    by_contra hout
    rw [exec_movRegMem_outside r hout] at hexec
    cases hexec
    cases ht
  obtain ⟨m, hm, hhigh, hlow, -⟩ := exec_movRegMem_inside r hin
  rw [hm] at hexec
  cases hexec
  rw [readSel_afterFetch] at hhigh hlow
  have hsum : addr.toNat + 2 ≤ u.params.memBytes := by rw [hparams]; exact hin
  have hnext : (addr + 1#16).toNat = addr.toNat + 1 := hin.toNat_add_one hmax
  have hbyte : u.byteAt = m.read := by
    funext a
    rw [State.byteAt, hmem]
    rfl
  have hfirst : fetch8 u = .ok (u.byteAt addr.toNat, u.setReg .ip (addr + 1#16)) := by
    rw [← hip]
    exact fetch8_inside (by rw [hip]; omega)
  have hip' : (u.setReg .ip (addr + 1#16)).reg .ip = addr + 1#16 := State.reg_setReg_self u .ip _
  have hsecond := fetch8_inside (s := u.setReg .ip (addr + 1#16)) (by rw [hip', hnext, State.setReg_params]; omega)
  have hword : fetch16 u = .ok (u.wordAt addr, u.setReg .ip (addr + 2#16)) := by
    rw [← hip]
    exact fetch16_inside (by rw [hip]; exact hsum)
  rw [hip', hnext, State.setReg_byteAt, State.setReg_setReg_self, BitVec.add_assoc] at hsecond
  rw [State.wordAt_of_halves (hbyte ▸ hhigh) (hbyte ▸ hlow)] at hword
  rw [hbyte, hhigh] at hfirst
  rw [hbyte, hlow] at hsecond
  exact ⟨_, _, hfirst, hsecond, hword⟩

end Sys2Proof.Machine
end

section
/-! Registers, reset, memory bytes, loading, the host's observation and runs (spec/10_state.md, spec/20_memory.md,
spec/70_reset_and_hazards.md, spec/40_step_and_fetch.md section 6). -/

namespace Sys2Proof.Machine

/-! ### Registers and reset -/

/-- Settles O8. -/
theorem registerWriteThenRead : Obligations.RegisterWriteThenRead := fun s r v =>
  ⟨State.reg_setReg_self s r v, fun _ hq => State.reg_setReg_of_ne s v (by simpa using hq), rfl, ⟨rfl, rfl⟩, rfl⟩

/-- Settles O9: offset `2i` divided by the word size is the number `i`. -/
theorem registerStoreReadIsBoundsChecked : Obligations.RegisterStoreReadIsBoundsChecked := by
  refine fun s off => ⟨fun h => if_pos h, ?_⟩
  rintro r rfl
  have hlt := r.number_lt
  rw [rfRead, if_neg (by omega), Nat.mul_div_cancel_left _ (by decide), Reg.nth_number]

/-- The registers after reset: SP and FP at the top word of memory, every other one zero (R35). -/
theorem resetWith_reg (p : Params) (m : Memory) (r : Reg) : (State.resetWith p m).reg r =
    if r = .sp ∨ r = .fp then BitVec.ofNat 16 (p.memBytes - 2) else 0 := by
  cases r <;> rfl

/-- Settles O10. -/
theorem resetLeavesTheStatedValues : Obligations.ResetLeavesTheStatedValues := by
  refine fun p m r => ⟨resetWith_reg p m r, rfl, rfl, rfl, fun hsize => ?_, fun hsize => ?_⟩
  · rw [resetWith_reg, hsize]
    rfl
  · rw [resetWith_reg, hsize]
    rfl

/-! ### Step requests and runs -/

/-- A step request of a machine whose latch is set changes nothing and answers the latched cause (R208). -/
theorem stepRequest_latched {s : State} {e : Fault} (h : s.fault = some e) : stepRequest s = (s, .fault e) := by
  simp only [stepRequest, step_latched h]

/-- Settles O23. -/
theorem latchedFaultIsSticky : Obligations.LatchedFaultIsSticky := fun _ _ h =>
  ⟨step_latched h, stepRequest_latched h, fun _ => runFor_succ_fault (stepRequest_latched h), rfl⟩

/-- A step of a machine whose latch is clear answers a next state: it is neither refused nor stopped. -/
theorem step_next_of_clear {s : State} (h : s.fault = none) : ∃ t, step s = .next t := by
  rw [step_clear h]
  match fetchInstr s with
  | .error e => exact ⟨_, rfl⟩
  | .ok (.unrecognised _) =>
    cases hp : s.params.illegalPolicy with
    | fault => exact ⟨_, execUnrecognised_fault hp⟩
    | ignore => exact ⟨_, execUnrecognised_ignore hp⟩
  | .ok (.instr i) =>
    obtain ⟨t, ht, -⟩ := exec_ends i s
    exact ⟨t, ht⟩

/-- A step request that answers a fault leaves that cause in the latch, and memory and the parameters as they were. -/
theorem stepRequest_fault_leaves {s t : State} {e : Fault} (h : stepRequest s = (t, .fault e)) :
    t.fault = some e ∧ t.mem = s.mem ∧ t.params = s.params := by
  cases hs : s.fault with
  | some e' =>
    rw [stepRequest_latched hs] at h
    cases h
    exact ⟨hs, rfl, rfl⟩
  | none =>
    obtain ⟨u, hstep⟩ := step_next_of_clear hs
    cases hu : u.fault with
    | none =>
      rw [stepRequest_completed hstep hu] at h
      cases h
    | some e' =>
      rw [stepRequest_fault hstep hu] at h
      cases h
      obtain ⟨-, -, -, hmem, hparams, -⟩ := faultingStepChangesOnlyTheLatch s t e hs hstep hu
      exact ⟨hu, hmem, hparams⟩

/-- Settles O11: a request that faulted left memory and the parameters alone, and reset depends on nothing else. -/
theorem resetRequestKeepsMemory : Obligations.ResetRequestKeepsMemory := by
  refine fun s => ⟨fun _ => rfl, rfl, resetWith_reg s.params s.mem, rfl, rfl, fun n t e h => ?_⟩
  obtain ⟨ht, hmem, hparams⟩ := stepRequest_fault_leaves h
  exact ⟨runFor_succ_fault h, runFor_succ_fault (stepRequest_latched ht), by
    rw [resetRequest, resetRequest, hmem, hparams]⟩

/-- A run stops at the first request that does not complete. -/
theorem runFor_succ_stop {n : Nat} {s t : State} {a : Answer} (h : stepRequest s = (t, a)) (ha : a ≠ .completed) :
    runFor (n + 1) s = (t, a) := by
  cases a with
  | completed => exact absurd rfl ha
  | fault e => exact runFor_succ_fault h
  | refused r => simp only [runFor, h]

/-- Settles O26, by induction on the first run: the first request either ends both runs or is followed by two shorter
ones. -/
theorem runStopsAtTheFirstFault : Obligations.RunStopsAtTheFirstFault := by
  intro n m s t
  induction n generalizing s with
  | zero =>
    refine ⟨fun e h => (by cases h), fun h => ?_⟩
    cases h
    rw [Nat.zero_add]
  | succ n ih =>
    rw [Nat.succ_add]
    rcases hfirst : stepRequest s with ⟨u, a⟩
    by_cases ha : a = .completed
    · subst ha
      rw [runFor_succ_completed hfirst, runFor_succ_completed hfirst]
      exact ih u
    · rw [runFor_succ_stop hfirst ha, runFor_succ_stop hfirst ha]
      exact ⟨fun _ => id, fun h => absurd (congrArg Prod.snd h) ha⟩

/-! ### Bytes of memory -/

theorem memWrite8_inside {s : State} {a : Word} (v : Byte) (h : a.toNat + 1 ≤ s.params.memBytes) :
    memWrite8 s a v = .ok (s.setMem (s.mem.write a.toNat v)) :=
  if_neg (Nat.not_lt.mpr h)

/-- Settles O15. -/
theorem byteWriteStoresOneByte : Obligations.ByteWriteStoresOneByte := fun s _ v =>
  ⟨fun h => ⟨_, memWrite8_inside v h, Memory.read_write_self s.mem _ v,
    fun _ hb => Memory.read_write_of_ne s.mem v hb, rfl, rfl, rfl, rfl⟩, fun h => if_pos h⟩

/-- What loading `bs` from address `a` on makes of `s` (R246). -/
structure Loaded (a : Nat) (bs : List Byte) (s t : State) : Prop where
  regs : t.regs = s.regs
  fsz : t.fsz = s.fsz
  control : SameControl s t
  wf : s.mem.wf → t.mem.wf
  within : s.mem.within s.params.memBytes → t.mem.within s.params.memBytes
  loaded : ∀ k (h : k < bs.length), t.byteAt (a + k) = bs[k]
  frame : ∀ b, b < a ∨ a + bs.length ≤ b → t.byteAt b = s.byteAt b

theorem loadBytes_inside {bs : List Byte} {a : Nat} {s : State} (hmax : s.params.memBytes ≤ 65536)
    (h : a + bs.length ≤ s.params.memBytes) : ∃ t, loadBytes a bs s = .ok t ∧ Loaded a bs s t := by
  induction bs generalizing a s with
  | nil => exact ⟨s, rfl, rfl, rfl, ⟨rfl, rfl⟩, id, id, fun _ hk => absurd hk (Nat.not_lt_zero _), fun _ _ => rfl⟩
  | cons b bs ih =>
    rw [List.length_cons] at h
    have hlt : a < s.params.memBytes := by omega
    have ha : (BitVec.ofNat 16 a).toNat = a := by rw [BitVec.toNat_ofNat]; omega
    have hwrite := memWrite8_inside (s := s) (a := BitVec.ofNat 16 a) b (by omega)
    rw [ha] at hwrite
    obtain ⟨t, ht, hl⟩ := ih (a := a + 1) (s := s.setMem (s.mem.write a b)) hmax (by
      rw [State.setMem_params]; omega)
    refine ⟨t, ?_, hl.regs, hl.fsz, hl.control, fun hw => hl.wf (Memory.wf_write _ _ hw),
      fun hw => hl.within (Memory.within_write _ hw hlt), fun k hk => ?_, fun c hc => ?_⟩
    · rw [loadBytes, if_neg (by omega), hwrite]
      exact ht
    · cases k with
      | zero => exact (hl.frame a (.inl (Nat.lt_succ_self a))).trans (Memory.read_write_self s.mem a b)
      | succ k =>
        rw [List.getElem_cons_succ, ← hl.loaded k (Nat.lt_of_succ_lt_succ hk), Nat.add_right_comm, Nat.add_assoc a k 1]
    · rw [List.length_cons] at hc
      rw [hl.frame c (by omega)]
      exact Memory.read_write_of_ne s.mem b (by omega)

/-- Settles O16: the image is loaded into the reset state, whose memory lists nothing. -/
theorem launchLoadsTheImage : Obligations.LaunchLoadsTheImage := by
  intro p image hp hfit
  have ⟨_, hmax, _⟩ := hp
  obtain ⟨t, ht, hl⟩ := loadBytes_inside (a := 0) (s := State.resetWith p []) hmax (by rwa [Nat.zero_add])
  obtain ⟨hparams, hfault⟩ := hl.control
  refine ⟨t, ht, ⟨hparams ▸ hp, hl.wf Memory.wf_nil, ?_, ?_⟩, hl.regs, hl.fsz, hfault, hparams, fun k hk => ?_,
    fun a ha => hl.frame a (.inr (by rwa [Nat.zero_add]))⟩
  · rw [hparams]
    exact hl.within nofun
  · rw [hfault]
    exact nofun
  · rw [← hl.loaded k hk, Nat.zero_add]

/-! ### The host's observation -/

theorem Reg.ofName_name (r : Reg) : Reg.ofName (Reg.name r) = some r := by cases r <;> rfl

/-- The names of the twelve registers (R249). -/
theorem Reg.name_mem (r : Reg) :
    Reg.name r ∈ ["IP", "ACC", "R1", "R2", "R3", "R4", "R5", "R6", "R7", "R8", "SP", "FP"] := by
  cases r <;> simp [Reg.name]

theorem Reg.ofName_eq_none {n : String} (h : ∀ r, Reg.name r ≠ n) : Reg.ofName n = none := by
  simp [Reg.ofName, h]

/-- Settles O57: the twelve names are distinct, and a name outside them is found at no register. -/
theorem peekReadsRegistersAndMemory : Obligations.PeekReadsRegistersAndMemory := by
  refine fun s => ⟨fun r => ?_, fun n hn => ?_, fun a => ⟨fun h => ?_, fun h => ?_⟩⟩
  · simp only [peekRegister, Reg.ofName_name]
  · have hnone : ∀ r, Reg.name r ≠ n := by
      rintro r rfl
      exact hn (Reg.name_mem r)
    simp only [peekRegister, Reg.ofName_eq_none hnone]
  · exact memRead16_inside h
  · exact memRead16_outside (not_wordInside_iff.mpr h)

end Sys2Proof.Machine
end

section
/-! The fetches of a step (spec/40_step_and_fetch.md R111, R115, R118): an instruction is fetched exactly when every
field of its row lies inside memory (O20), and then it is the one the decoder reads from the bytes at IP (O19). -/

namespace Sys2Proof.Machine

/-- Settles O18: IP + 1 wraps to 0; the two bytes of a word at 0xFFFF end beyond every memory. -/
theorem byteFetchWrapsAndWordFetchFaults : Obligations.ByteFetchWrapsAndWordFetchFaults := by
  intro s hsize hip
  have htop : (s.reg .ip).toNat = 0xFFFF := by rw [hip]; rfl
  refine ⟨⟨s.setReg .ip (s.reg .ip + 1#16), ?_, ?_⟩, fetch16_outside (by omega)⟩
  · rw [fetch8_inside (by omega), htop]
  · rw [State.reg_setReg_self, hip]
    rfl

/-! ### The fields of a row, each checked at the address it is fetched from -/

/-- Successive fetches of the given widths at IP all lie inside memory. -/
def FieldsInside : List Nat → State → Prop
  | [], _ => True
  | w :: ws, s => (s.reg .ip).toNat + w ≤ s.params.memBytes ∧
      FieldsInside ws (s.setReg .ip (s.reg .ip + BitVec.ofNat 16 w))

theorem fieldsInside_iff (s : State) (o : Nat) (ks : List OperandKind) :
    FieldsInside (ks.map OperandKind.width) (s.setReg .ip (s.reg .ip + BitVec.ofNat 16 o)) ↔
      ∀ f ∈ fieldSpans o ks, (s.reg .ip + BitVec.ofNat 16 f.1).toNat + f.2 ≤ s.params.memBytes := by
  induction ks generalizing o with
  | nil => simp [FieldsInside, fieldSpans]
  | cons k ks ih =>
    rw [List.map_cons, FieldsInside, State.reg_setReg_self, State.setReg_params, State.setReg_setReg_self,
      BitVec.add_assoc, ← BitVec.ofNat_add, ih, fieldSpans, List.forall_mem_cons]

theorem fetchable_iff {s : State} {m : Mnemonic} : Fetchable s m ↔
    (s.reg .ip).toNat + 1 ≤ s.params.memBytes ∧ FieldsInside m.widths (s.setReg .ip (s.reg .ip + 1#16)) := by
  rw [Fetchable, fetchSpans, List.forall_mem_cons, ← fieldsInside_iff]
  show (s.reg .ip + 0#16).toNat + 1 ≤ _ ∧ _ ↔ _
  rw [BitVec.add_zero]
  rfl

/-! ### A fetch that succeeds -/

/-- A fetch of `n` bytes succeeds only inside memory, and leaves IP `n` bytes on. -/
def Advances {α : Type} (n : Nat) (read : State → Except Fault (α × State)) : Prop :=
  ∀ s a t, read s = .ok (a, t) →
    (s.reg .ip).toNat + n ≤ s.params.memBytes ∧ t = s.setReg .ip (s.reg .ip + BitVec.ofNat 16 n)

theorem Advances.of_bounds {α : Type} {n : Nat} {read : State → Except Fault (α × State)} {val : State → α}
    (hin : ∀ {s}, (s.reg .ip).toNat + n ≤ s.params.memBytes →
      read s = .ok (val s, s.setReg .ip (s.reg .ip + BitVec.ofNat 16 n)))
    (hout : ∀ {s}, ¬ (s.reg .ip).toNat + n ≤ s.params.memBytes → read s = .error .outOfBounds) : Advances n read := by
  intro s a t h
  by_cases hs : (s.reg .ip).toNat + n ≤ s.params.memBytes
  · rw [hin hs] at h
    cases h
    exact ⟨hs, rfl⟩
  · rw [hout hs] at h
    cases h

theorem fetch8_advances : Advances 1 fetch8 := .of_bounds fetch8_inside fetch8_outside
theorem fetchReg_advances : Advances 1 fetchReg := .of_bounds fetchReg_inside fetchReg_outside
theorem fetch16_advances : Advances 2 fetch16 := .of_bounds fetch16_inside fetch16_outside

/-- Every operand that a reader of these widths fetched lies inside memory. -/
def ReadsInside (ws : List Nat) (read : State → Except Fault (Instr × State)) : Prop :=
  ∀ s i t, read s = .ok (i, t) → FieldsInside ws s

theorem Advances.readsInside_readThen {α : Type} {n : Nat} {read : State → Except Fault (α × State)}
    {f : α → State → Except Fault (Instr × State)} {ws : List Nat} (hread : Advances n read)
    (hf : ∀ a, ReadsInside ws (f a)) : ReadsInside (n :: ws) (readThen read f) := by
  intro s i t h
  obtain ⟨a, u, hu, hi⟩ := readThen_ok_iff.mp h
  obtain ⟨hin, rfl⟩ := hread s a u hu
  exact ⟨hin, hf a _ i t hi⟩

theorem readOperands_readsInside (m : Mnemonic) : ReadsInside m.widths (readOperands fetch8 fetchReg fetch16 m) :=
  readOperands_induction (C := fun ws read _ => ReadsInside ws read) (byte' := fetch8) (reg' := fetchReg)
    (word' := fetch16) m (fun _ _ _ _ _ _ => trivial) (fun _ _ _ ih => fetch8_advances.readsInside_readThen ih)
    (fun _ _ _ ih => fetchReg_advances.readsInside_readThen ih)
    (fun _ _ _ ih => fetch16_advances.readsInside_readThen ih)

/-- When the opcode byte selects a row, the fetches of the step are those of the row's operands. -/
theorem fetchInstr_of_lookup {s : State} {m : Mnemonic} (hin : (s.reg .ip).toNat + 1 ≤ s.params.memBytes)
    (hrow : s.params.opc.lookup (s.byteAt (s.reg .ip).toNat) = some m) : fetchInstr s =
      (readOperands fetch8 fetchReg fetch16 m (s.setReg .ip (s.reg .ip + 1#16))).map fun p => .instr p.1 := by
  simp only [fetchInstr, fetch8_inside hin, bind, Except.bind, hrow]
  cases readOperands fetch8 fetchReg fetch16 m (s.setReg .ip (s.reg .ip + 1#16)) <;> rfl

/-- Settles O20: a step whose fetches all succeed fetched every field inside memory, and the fetches fail in no other
way than by OutOfBounds. -/
theorem fetchOutsideMemoryTakesFault : Obligations.FetchOutsideMemoryTakesFault := by
  intro s hclear
  have hopcode : s.params.memBytes < (s.reg .ip).toNat + 1 → step s = .next (takeFault .outOfBounds s) := by
    intro hout
    rw [step_clear hclear, fetchInstr, fetch8_outside (Nat.not_le.mpr hout)]
    rfl
  refine ⟨hopcode, fun m hinj hop hfetch => ?_⟩
  by_cases hin : (s.reg .ip).toNat + 1 ≤ s.params.memBytes
  · have hrow : s.params.opc.lookup (s.byteAt (s.reg .ip).toNat) = some m := hop ▸ OpcodeMap.lookup_get hinj m
    rw [step_clear hclear, fetchInstr_of_lookup hin hrow]
    cases hread : readOperands fetch8 fetchReg fetch16 m (s.setReg .ip (s.reg .ip + 1#16)) with
    | error e =>
      rw [readOperands_error hread]
      rfl
    | ok p => exact absurd (fetchable_iff.mpr ⟨hin, readOperands_readsInside m _ p.1 p.2 hread⟩) hfetch
  · exact hopcode (Nat.not_le.mp hin)

/-! ### Fetching is decoding the bytes at IP -/

@[simp] theorem bytesFrom_setReg (s : State) (r : Reg) (v a : Word) (n : Nat) :
    bytesFrom (s.setReg r v) a n = bytesFrom s a n := by
  induction n generalizing a with
  | zero => rfl
  | succ n ih => rw [bytesFrom, bytesFrom, ih, State.setReg_byteAt]

/-- Taking a field of `k` bytes off the bytes at IP answers what fetching it does. -/
def Agrees {α : Type} (k : Nat) (take : List Byte → Except DecodeError (α × List Byte))
    (fetch : State → Except Fault (α × State)) : Prop :=
  ∀ s n, s.params.memBytes ≤ 65536 → (s.reg .ip).toNat + k ≤ s.params.memBytes → k ≤ n →
    ∃ a, take (bytesFrom s (s.reg .ip) n) = .ok (a, bytesFrom s (s.reg .ip + BitVec.ofNat 16 k) (n - k)) ∧
      fetch s = .ok (a, s.setReg .ip (s.reg .ip + BitVec.ofNat 16 k))

theorem takeByte_agrees : Agrees 1 takeByte fetch8 := by
  intro s n _ hin hn
  obtain ⟨n, rfl⟩ := Nat.exists_eq_add_of_le' hn
  exact ⟨_, rfl, fetch8_inside hin⟩

theorem takeReg_agrees : Agrees 1 takeReg fetchReg := by
  intro s n _ hin hn
  obtain ⟨n, rfl⟩ := Nat.exists_eq_add_of_le' hn
  exact ⟨_, rfl, fetchReg_inside hin⟩

theorem takeWord_agrees : Agrees 2 takeWord fetch16 := by
  intro s n hmax hin hn
  obtain ⟨n, rfl⟩ := Nat.exists_eq_add_of_le' hn
  refine ⟨s.wordAt (s.reg .ip), ?_, fetch16_inside hin⟩
  rw [State.wordAt_eq_bytes hmax hin, bytesFrom, bytesFrom, takeWord, BitVec.add_assoc]
  rfl

/-- Reading a row's operands from the bytes at IP answers the instruction fetching them does. -/
def AgreesInside (ws : List Nat) (take : List Byte → Except DecodeError (Instr × List Byte))
    (fetch : State → Except Fault (Instr × State)) : Prop :=
  ∀ s n, s.params.memBytes ≤ 65536 → FieldsInside ws s → ws.sum ≤ n →
    ∃ i rest t, take (bytesFrom s (s.reg .ip) n) = .ok (i, rest) ∧ fetch s = .ok (i, t)

theorem Agrees.readThen {α : Type} {k : Nat} {take : List Byte → Except DecodeError (α × List Byte)}
    {fetch : State → Except Fault (α × State)} {ws : List Nat}
    {f : α → List Byte → Except DecodeError (Instr × List Byte)} {g : α → State → Except Fault (Instr × State)}
    (h : Agrees k take fetch) (ih : ∀ a, AgreesInside ws (f a) (g a)) :
    AgreesInside (k :: ws) (readThen take f) (readThen fetch g) := by
  intro s n hmax ⟨hin, hrest⟩ hn
  rw [List.sum_cons] at hn
  obtain ⟨a, htake, hfetch⟩ := h s n hmax hin (by omega)
  obtain ⟨i, rest, t, htake', hfetch'⟩ := ih a (s.setReg .ip (s.reg .ip + BitVec.ofNat 16 k)) (n - k) hmax hrest (by omega)
  rw [bytesFrom_setReg, State.reg_setReg_self] at htake'
  exact ⟨i, rest, t, readThen_ok_iff.mpr ⟨a, _, htake, htake'⟩, readThen_ok_iff.mpr ⟨a, _, hfetch, hfetch'⟩⟩

theorem readOperands_agrees (m : Mnemonic) : AgreesInside m.widths (readOperands takeByte takeReg takeWord m)
    (readOperands fetch8 fetchReg fetch16 m) :=
  readOperands_induction (C := AgreesInside) m (fun i _ s _ _ _ _ => ⟨i, _, s, rfl, rfl⟩)
    (fun _ _ _ ih => takeByte_agrees.readThen ih) (fun _ _ _ ih => takeReg_agrees.readThen ih)
    (fun _ _ _ ih => takeWord_agrees.readThen ih)

/-- The longest operands are four bytes (R80). -/
theorem widths_sum_le (m : Mnemonic) : m.widths.sum ≤ 4 := by cases m <;> decide

/-- Settles O19: the opcode byte at IP selects the row of the decoded instruction, and the fetches of its operands
agree with the decoder. -/
theorem stepRunsTheDecodedInstruction : Obligations.StepRunsTheDecodedInstruction := by
  intro s i rest ⟨_, hmax, _⟩ hclear hfetch hdecode
  obtain ⟨hin, hfields⟩ := fetchable_iff.mp hfetch
  obtain ⟨b, ops, hbytes, hrow, hops⟩ := decode_ok hdecode
  rw [bytesFrom, List.cons.injEq] at hbytes
  obtain ⟨rfl, rfl⟩ := hbytes
  obtain ⟨j, rest', t, htake, hread⟩ :=
    readOperands_agrees i.mnemonic (s.setReg .ip (s.reg .ip + 1#16)) 4 hmax hfields (widths_sum_le i.mnemonic)
  rw [bytesFrom_setReg, State.reg_setReg_self, hops] at htake
  cases htake
  refine ⟨?_, afterFetch_ip i.mnemonic s⟩
  rw [step_clear hclear, fetchInstr_of_lookup hin hrow, hread]
  rfl

end Sys2Proof.Machine
end
